-- ==== Sys2Proof/Word.lean ====
section
/-! DEFINITION. The word types of the hardware: bytes, 16-bit words, register numbers and 12-bit addresses
(spec/00_scope.md R5, R6; spec/10_state.md R10, R12, R13). All quantities are unsigned. -/

namespace Sys2Proof

/-- A byte of memory, of a `V` register or of a timer (R10, R17, R40). -/
abbrev Byte := BitVec 8

/-- A 16-bit value: an opcode, `I`, `PC`, a stack entry (R12, R13, R18, R60). -/
abbrev Word := BitVec 16

/-- A general register number, 0 to 15 (R10). -/
abbrev Reg := Fin 16

/-- A 12-bit address operand `nnn` (R61). -/
abbrev Addr12 := BitVec 12

/-- `VF`, register 15, the flag register (R11). -/
abbrev vf : Reg := 15

end Sys2Proof
end

