-- ==== Sys2Proof/Syntax.lean ====
section
/-! DEFINITION. The instruction set as syntax: one constructor per row of spec/opcode_table.json (37 rows,
spec/30_encoding.md R64), with the operands of R68. Register operands are `Reg`, so a register number that does
not exist cannot be written. -/

namespace Sys2Proof

/-- One instruction. Each constructor's docstring gives the pattern and the rule of the opcode map. -/
inductive Instr where
  /-- `00E0` CLS (R80) -/
  | cls
  /-- `00EE` RET (R90) -/
  | ret
  /-- `00FD` EXIT (R81) -/
  | exit
  /-- `00FE` LOW (R82) -/
  | low
  /-- `00FF` HIGH (R83) -/
  | high
  /-- `1nnn` JP nnn (R91) -/
  | jp (nnn : Addr12)
  /-- `2nnn` CALL nnn (R92) -/
  | call (nnn : Addr12)
  /-- `3xnn` SE Vx, nn (R93) -/
  | seImm (x : Reg) (nn : Byte)
  /-- `4xnn` SNE Vx, nn (R94) -/
  | sneImm (x : Reg) (nn : Byte)
  /-- `5xy0` SE Vx, Vy (R95) -/
  | seReg (x y : Reg)
  /-- `6xnn` LD Vx, nn (R100) -/
  | ldImm (x : Reg) (nn : Byte)
  /-- `7xnn` ADD Vx, nn (R101) -/
  | addImm (x : Reg) (nn : Byte)
  /-- `8xy0` LD Vx, Vy (R102) -/
  | ldReg (x y : Reg)
  /-- `8xy1` OR Vx, Vy (R103) -/
  | orReg (x y : Reg)
  /-- `8xy2` AND Vx, Vy (R104) -/
  | andReg (x y : Reg)
  /-- `8xy3` XOR Vx, Vy (R105) -/
  | xorReg (x y : Reg)
  /-- `8xy4` ADD Vx, Vy (R106) -/
  | addReg (x y : Reg)
  /-- `8xy5` SUB Vx, Vy (R107) -/
  | subReg (x y : Reg)
  /-- `8xy6` SHR Vx, Vy (R108) -/
  | shr (x y : Reg)
  /-- `8xy7` SUBN Vx, Vy (R109) -/
  | subn (x y : Reg)
  /-- `8xyE` SHL Vx, Vy (R110) -/
  | shl (x y : Reg)
  /-- `9xy0` SNE Vx, Vy (R96) -/
  | sneReg (x y : Reg)
  /-- `Annn` LD I, nnn (R120) -/
  | ldI (nnn : Addr12)
  /-- `Bnnn` JP V0, nnn (R97): `x` is the top nibble of `nnn`, read as a register number under `Q.jumping`; the
  same bits stay part of `nnn` (R68), which `WellFormed` checks. -/
  | jpV0 (x : Reg) (nnn : Addr12)
  /-- `Cxnn` RND Vx, nn (R111) -/
  | rnd (x : Reg) (nn : Byte)
  /-- `Dxyn` DRW Vx, Vy, n (R130 to R136) -/
  | drw (x y : Reg) (n : Fin 16)
  /-- `Ex9E` SKP Vx (R140) -/
  | skp (x : Reg)
  /-- `ExA1` SKNP Vx (R141) -/
  | sknp (x : Reg)
  /-- `Fx07` LD Vx, DT (R142) -/
  | ldVxDt (x : Reg)
  /-- `Fx0A` LD Vx, K (R143) -/
  | ldVxK (x : Reg)
  /-- `Fx15` LD DT, Vx (R144) -/
  | ldDtVx (x : Reg)
  /-- `Fx18` LD ST, Vx (R145) -/
  | ldStVx (x : Reg)
  /-- `Fx1E` ADD I, Vx (R121) -/
  | addI (x : Reg)
  /-- `Fx29` LD F, Vx (R122) -/
  | ldF (x : Reg)
  /-- `Fx33` LD B, Vx (R123) -/
  | ldB (x : Reg)
  /-- `Fx55` LD [I], Vx (R124) -/
  | storeRegs (x : Reg)
  /-- `Fx65` LD Vx, [I] (R125) -/
  | loadRegs (x : Reg)
deriving DecidableEq, Repr

end Sys2Proof
end

