-- ==== Sys2Proof/WellFormed.lean ====
section
/-! DEFINITION. Which instruction terms stand for words. Every operand but one is exact by its type; the one check
is that the register operand of `Bnnn` is the top nibble of its `nnn` (spec/30_encoding.md R63, R68). -/

namespace Sys2Proof

/-- `i` is an instruction some word encodes. Only `Bnnn` can fail: its two operands share bits 11 to 8 (R68). -/
def WellFormed : Instr → Bool
  | .jpV0 x nnn => x.val == nnn.toNat / 256
  | .cls | .ret | .exit | .low | .high => true
  | .jp _ | .call _ | .ldI _ => true
  | .seImm _ _ | .sneImm _ _ | .ldImm _ _ | .addImm _ _ | .rnd _ _ => true
  | .seReg _ _ | .sneReg _ _ | .ldReg _ _ | .orReg _ _ | .andReg _ _ | .xorReg _ _ => true
  | .addReg _ _ | .subReg _ _ | .shr _ _ | .subn _ _ | .shl _ _ => true
  | .drw _ _ _ => true
  | .skp _ | .sknp _ | .ldVxDt _ | .ldVxK _ | .ldDtVx _ | .ldStVx _ => true
  | .addI _ | .ldF _ | .ldB _ | .storeRegs _ | .loadRegs _ => true

end Sys2Proof
end

