-- ==== Sys2Proof/Config.lean ====
section
/-! DEFINITION. The parameters of spec/00_scope.md R5 that are fixed for this hardware, and the two free values of
the model: the stream of random bytes and the bytes of a large font that is not given. -/

namespace Sys2Proof.Config

/-- The highest address that names a byte (R40, R45). `MEM_SIZE` is one more. -/
def maxAddr : Nat := 0xFFF

/-- `PROG_BASE`: where the program is loaded and execution begins (R5, R41). -/
def progBase : Nat := 0x200

/-- `ROM_MAX`: the longest legal ROM, `MEM_SIZE - PROG_BASE` (R5, R182). -/
def romMax : Nat := 3584

/-- `FONT_BASE`: where the small font lies (R5, R41). -/
def fontBase : Nat := 0x050

/-- `FONT_LARGE_BASE`: where the large font lies (R5, R41). -/
def fontLargeBase : Nat := 0x0A0

/-- The longest `FONT_LARGE` the parameter admits (R5, R181). -/
def fontLargeMax : Nat := 352

/-- `STACK_DEPTH`: how many return addresses the call stack holds; `none` is the unbounded stack that R5 and R18
allow a model to take instead. This hardware: 16. DESIGN CHOICE of the spec (D6), log 10. -/
def stackDepth : Option Nat := some 16

/-- `FB_W`, `FB_H`: the backing grid (R5, R20). -/
def fbWidth : Nat := 128

/-- See `fbWidth`. -/
def fbHeight : Nat := 64

/-- `LORES_W`, `LORES_H`: the logical grid of low resolution (R5, R22). -/
def loresWidth : Nat := 64

/-- See `loresWidth`. -/
def loresHeight : Nat := 32

/-- FREE VALUE (R28, R111; log 4): the byte the random source gives at draw number `k` when the environment has
lined up none. It has no body, so nothing can be proved of it beyond its being a byte. -/
opaque freeRng : Nat → Byte

/-- FREE VALUE (R181, U14; log 6): the byte at `0x0A0 + k` after a reset for which `FONT_LARGE` is not given. It has no
body, so nothing can be proved of it beyond its being a byte. -/
opaque freeFontLarge : Nat → Byte

end Sys2Proof.Config
end

