-- ==== Sys2Proof/Machine/State.lean ====
section
/-! DEFINITION. The machine's state as plain data (spec/10_state.md R10 to R34), the reasons a step can stop, and the
state after reset (R34, R180). -/

namespace Sys2Proof.Machine

/-- `MEM` (R40) as the cells that differ from the reset contents, addresses strictly rising
(`Memory.wf` in Machine/Ops.lean says so). -/
structure Memory where
  cells : List Host.Cell
deriving DecidableEq, Repr

/-- `FB` (R20): one row of 128 pixels for each of the 64 values of `y`; bit `x` of row `y` is `FB[y][x]`. -/
abbrev FrameBuffer := Vector (BitVec 128) 64

/-- `MODE` (R22): 0 is low resolution (logical 64 by 32), 1 is high resolution (logical 128 by 64). -/
inductive DisplayMode where
  | lores
  | hires
deriving DecidableEq, Repr

/-- `RUN` (R23): the run-state. -/
inductive RunState where
  | running
  | paused
  | stopped
deriving DecidableEq, Repr

/-- A value of the `REPORT` output (R33, R150). The payload of `memoryFault` is the lowest out-of-range address, a
natural number. -/
inductive Report where
  | none
  | unknownOpcode (w : Word)
  | stackUnderflow
  | memoryFault (addr : Nat)
  | stackOverflow
deriving DecidableEq, Repr

/-- The quirk inputs `Q` (R27). -/
structure Quirks where
  /-- `8xy1`, `8xy2`, `8xy3` clear `VF` afterwards. -/
  vfReset : Bool
  /-- `Dxyn` skips pixels outside the grid instead of wrapping them. -/
  clipping : Bool
  /-- `Bnnn` adds `V[x]` instead of `V[0]`. -/
  jumping : Bool
  /-- Shifts copy `V[y]` first; `Fx55`, `Fx65` advance `I`. -/
  legacy : Bool
deriving DecidableEq, Repr

/-- The machine: all the state of R10 to R24, the input ports `KEY`, `Q`, `RNG` as levels the environment sets between
steps (log 3, log 4), and the `REPORT` output of the latest step (log 1). -/
structure State where
  /-- The general registers `V0` to `VF` (R10). -/
  v : Vector Byte 16
  /-- The index register `I` (R12). -/
  i : Word
  /-- The program counter `PC` (R13). -/
  pc : Word
  /-- The delay timer `DT` (R17). -/
  dt : Byte
  /-- The sound timer `ST` (R17). -/
  st : Byte
  /-- The live entries of the call stack, the latest pushed first; `SP` is its length (R18, log 10). -/
  stack : List Word
  /-- `MEM` (R19, R40). -/
  mem : Memory
  /-- `FB` (R20). -/
  fb : FrameBuffer
  /-- `MODE` (R22). -/
  mode : DisplayMode
  /-- `RUN` (R23). -/
  run : RunState
  /-- The `REPORT` output of the latest step (R33). -/
  report : Report
  /-- The `KEY` input: bit `k` is 1 when key `k` is pressed (R21, R26). -/
  keys : BitVec 16
  /-- The `Q` input (R27). -/
  quirks : Quirks
  /-- The `RNG` input: the bytes the environment has lined up, next one first (R28, R183; log 4). -/
  rngIn : List Byte
  /-- The model's own counter: how many bytes were drawn from `Config.freeRng` (log 4). -/
  rngDraws : Nat
deriving DecidableEq, Repr

/-- The fault outcomes. No instruction and no `step` answers one: reports leave normative next states (R150), and the
step answers those. All are safe: nothing is claimed of what comes after. -/
inductive Fault where
  /-- The reset event with a ROM of more than 3584 bytes: "no machine exists" (R155, R182). Raised by `applyEvent`
  alone. Safe. -/
  | romTooLarge
  /-- The strict reading of 93_implementation_defined.md Part 3: a step that raised a report, taken as the end of the
  run. Raised by `Safety.strictStep` alone, never by `step`. Safe. -/
  | reported (r : Report)
deriving DecidableEq, Repr

/-- The refusals. None is raised: every instruction has a meaning, and an unknown word is the reported no-op of R66.
Safe. -/
inductive Refusal where
  /-- An instruction without a meaning, refused by name in `exec`'s arm; no arm does so. Safe. -/
  | notModelled (mnemonic : String)
deriving DecidableEq, Repr

/-- The three outcomes at this machine's types. -/
abbrev Outcome := Host.Outcome State Fault Refusal

/-- The machine right after the reset event (R34, R180) with an empty ROM, `FONT_LARGE` not given and `INITIAL_HIRES = 0`
(log 5, log 6, log 8), all keys up, all quirks off and no random byte lined up (log 3, log 4). Memory lists nothing:
the reset contents are what unlisted addresses read as. -/
def State.reset : State where
  v := Vector.replicate 16 0
  i := 0
  pc := 0x0200
  dt := 0
  st := 0
  stack := []
  mem := ⟨[]⟩
  fb := Vector.replicate 64 0
  mode := .lores
  run := .running
  report := .none
  keys := 0
  quirks := ⟨false, false, false, false⟩
  rngIn := []
  rngDraws := 0

end Sys2Proof.Machine
end

