-- ==== Sys2Proof/Machine/Ops.lean ====
section
/-! DEFINITION. The named operations over memory, registers, the stack, the framebuffer and the input ports, the fetch,
and raising a report: this hardware's only form of taking an exception (spec/60_exceptions.md R150, R164). -/

namespace Sys2Proof.Machine

/-! ## Memory (spec/20_memory.md) -/

/-- Glyphs 0 to 7 of `FONT_SMALL` (R181; [from general knowledge, not in source], log 7). -/
def fontSmallLow : List (List Byte) :=
  [[0xF0, 0x90, 0x90, 0x90, 0xF0], [0x20, 0x60, 0x20, 0x20, 0x70], [0xF0, 0x10, 0xF0, 0x80, 0xF0],
   [0xF0, 0x10, 0xF0, 0x10, 0xF0], [0x90, 0x90, 0xF0, 0x10, 0x10], [0xF0, 0x80, 0xF0, 0x10, 0xF0],
   [0xF0, 0x80, 0xF0, 0x90, 0xF0], [0xF0, 0x10, 0x20, 0x40, 0x40]]

/-- Glyphs 8 to F of `FONT_SMALL` (R181; log 7). -/
def fontSmallHigh : List (List Byte) :=
  [[0xF0, 0x90, 0xF0, 0x90, 0xF0], [0xF0, 0x90, 0xF0, 0x10, 0xF0], [0xF0, 0x90, 0xF0, 0x90, 0x90],
   [0xE0, 0x90, 0xE0, 0x90, 0xE0], [0xF0, 0x80, 0x80, 0x80, 0xF0], [0xE0, 0x90, 0x90, 0x90, 0xE0],
   [0xF0, 0x80, 0xF0, 0x80, 0xF0], [0xF0, 0x80, 0xF0, 0x80, 0x80]]

/-- The 80 bytes of `FONT_SMALL`, glyph `d` at offset `5 * d` (R41, R181). -/
def fontSmall : List Byte := (fontSmallLow ++ fontSmallHigh).flatten

/-- The byte the spec gives an address at reset with `FONT_LARGE` not given and `ROM` empty: `FONT_SMALL` at `0x050` to
`0x09F` and 0 elsewhere (R34, R181; log 8), none at `0x0A0` to `0x1FF`, whose bytes are then unknown (R181, U14;
log 6). -/
def resetByte (a : Nat) : Option Byte :=
  if Config.progBase ≤ a then some 0
  else if Config.fontLargeBase ≤ a then none
  else if Config.fontBase ≤ a then some (fontSmall.getD (a - Config.fontBase) 0)
  else some 0

/-- What an address that memory does not list reads as: its reset byte, or a free value where that is unknown
(log 6). -/
def unlistedByte (a : Nat) : Byte := (resetByte a).getD (Config.freeFontLarge (a - Config.fontLargeBase))

/-- The listed byte at an address. -/
def findCell (a : Nat) : List Host.Cell → Option Byte
  | [] => none
  | (c, b) :: rest => if c = a then some b else findCell a rest

/-- `MemRead(a, 1)` (R7, R45). Callers check the range first (R47, R48), so `a` is at most `0xFFF`. -/
def Memory.read (m : Memory) (a : Nat) : Byte := (findCell a m.cells).getD (unlistedByte a)

/-- Put a byte at an address of a list with rising addresses. -/
def insertCell (a : Nat) (b : Byte) : List Host.Cell → List Host.Cell
  | [] => [(a, b)]
  | (c, d) :: rest =>
    if a < c then (a, b) :: (c, d) :: rest
    else if a = c then (a, b) :: rest
    else (c, d) :: insertCell a b rest

/-- Take an address off the list. -/
def eraseCell (a : Nat) (cells : List Host.Cell) : List Host.Cell := cells.filter (fun c => c.1 != a)

/-- `MemWrite(a, 1, b)` (R7, R45). Writing the reset byte of an address takes its entry off, so equal memories are equal
data; where the reset byte is unknown, whatever is written is listed (log 21). Callers check the range first
(R48); an address above `0xFFF` names no byte and changes nothing (log 16). -/
def Memory.write (m : Memory) (a : Nat) (b : Byte) : Memory :=
  if Config.maxAddr < a then m
  else if resetByte a = some b then ⟨eraseCell a m.cells⟩
  else ⟨insertCell a b m.cells⟩

/-- Write a sequence of bytes at ascending addresses (R49). -/
def Memory.writeBytes (m : Memory) (a : Nat) : List Byte → Memory
  | [] => m
  | b :: bs => (m.write a b).writeBytes (a + 1) bs

/-- The canonical form of a cell list whose addresses are at least `lo`: strictly rising, none above `0xFFF`, and no
byte equal to the reset byte that the unlisted address reads as. -/
def cellsOk (lo : Nat) : List Host.Cell → Bool
  | [] => true
  | (a, b) :: rest => decide (lo ≤ a) && decide (a ≤ Config.maxAddr) && !(resetByte a == some b) && cellsOk (a + 1) rest

/-- Memory is in canonical form. -/
def Memory.wf (m : Memory) : Bool := cellsOk 0 m.cells

/-! ## Reports (spec/60_exceptions.md) -/

/-- `raise Report(r)` (R7, R150): the step's `REPORT` output is `r`. Nothing else changes: no state is saved, no mode
changes, no control is transferred and the machine goes on. There is nothing to return from (R164). -/
def raise (r : Report) (s : State) : Outcome := .next { s with report := r }

/-- The lowest out-of-range address of an access that starts at `base` and leaves the range (R47, R48). -/
def faultAddr (base : Nat) : Nat := max base 0x1000

/-- An access to `len` bytes from `base` leaves the range: naturals, compared before any reduction (R46, R48). -/
def rangeFaults (base len : Nat) : Bool := decide (0 < len ∧ Config.maxAddr < base + len - 1)

/-- The check an instruction makes on its whole range before it changes anything (R48): `MemoryFault` and no effect
when the range leaves memory, else the instruction's effect. -/
def guardRange (base len : Nat) (s : State) (effect : Outcome) : Outcome :=
  if rangeFaults base len then raise (.memoryFault (faultAddr base)) s else effect

/-! ## Fetch (spec/20_memory.md R43, R47; spec/30_encoding.md R70) -/

/-- The fetch at `PC` cannot be performed: `PC + 1 > 0xFFF` (R47). -/
def fetchFaults (s : State) : Bool := decide (Config.maxAddr < s.pc.toNat + 1)

/-- The word at `PC`, the byte at the lower address high (R43). -/
def fetchWord (s : State) : Word := wordOfBytes (s.mem.read s.pc.toNat) (s.mem.read (s.pc.toNat + 1))

/-- The start of a step that fetched: `REPORT <- None` and the fetch-advance `PC <- PC + 2` (R70). -/
def fetchAdvance (s : State) : State := { s with report := .none, pc := s.pc + 2 }

/-! ## Registers and program counter -/

/-- `V[r]` (R7, R10). -/
def State.getV (s : State) (r : Reg) : Byte := s.v[r]

/-- `V[r] <- b` (R7, R10). -/
def State.setV (s : State) (r : Reg) (b : Byte) : State := { s with v := s.v.set r b }

/-- `I <- w` (R7, R12). -/
def State.setI (s : State) (w : Word) : State := { s with i := w }

/-- `PC <- w` (R7, R13). -/
def State.setPc (s : State) (w : Word) : State := { s with pc := w }

/-- Writing memory in the state. -/
def State.setMem (s : State) (m : Memory) : State := { s with mem := m }

/-- Writing the framebuffer in the state. -/
def State.setFb (s : State) (fb : FrameBuffer) : State := { s with fb := fb }

/-- "Skip next instruction": `PC <- PC + 2` when the condition holds (spec/41_control_flow.md). -/
def skipIf (c : Bool) (s : State) : State := if c then s.setPc (s.pc + 2) else s

/-! ## The call stack (spec/10_state.md R18) -/

/-- `SP`: the number of entries held (R18). -/
def State.sp (s : State) : Nat := s.stack.length

/-- `STACK[k]`, readable for `k < SP` only (R18): entry 0 is the oldest. -/
def State.stackEntry (s : State) (k : Nat) : Option Word := s.stack.reverse[k]?

/-- The stack already holds as many entries as the depth allows; an unbounded stack is never full (R18, R92). -/
def stackFull (depth : Option Nat) (stack : List Word) : Bool :=
  match depth with
  | none => false
  | some d => decide (d ≤ stack.length)

/-- Push the return address `PC` and go to `target`, or raise `StackOverflow` and change nothing when the stack is full
(R18, R92, R154). -/
def callTo (depth : Option Nat) (target : Word) (s : State) : Outcome :=
  if stackFull depth s.stack then raise .stackOverflow s
  else .next { s with stack := s.pc :: s.stack, pc := target }

/-- Pop the latest return address into `PC`, or raise `StackUnderflow` and change nothing when the stack is empty
(R18, R90, R152). -/
def returnFromCall (s : State) : Outcome :=
  match s.stack with
  | [] => raise .stackUnderflow s
  | a :: rest => .next { s with stack := rest, pc := a }

/-! ## The framebuffer (spec/10_state.md R20; spec/44_draw.md R134) -/

/-- The cleared framebuffer (R34, R80). -/
def blankFb : FrameBuffer := Vector.replicate 64 0

/-- `FB[y][x]` (R7, R20); a position outside the backing grid holds no pixel and reads as off. -/
def fbPixel (fb : FrameBuffer) (x y : Nat) : Bool := if h : y < 64 then fb[y].getLsbD x else false

/-- `FB[y][x] <- FB[y][x] ^ 1` (R134); a position outside the backing grid holds no pixel and nothing changes. -/
def fbFlip (fb : FrameBuffer) (x y : Nat) : FrameBuffer :=
  if h : y < 64 then fb.set y (fb[y] ^^^ (1#128 <<< x)) else fb

/-! ## Input ports -/

/-- `KEY[k]` (R7, R26). -/
def keyDown (s : State) (k : Nat) : Bool := s.keys.getLsbD k

/-- The least key number that is pressed (R143), none when no key is. -/
def lowestKey (s : State) : Option (Fin 16) := (List.finRange 16).find? (fun k => keyDown s k.val)

/-- `rng()` (R7, R28, R111): the next byte the environment has lined up, or a free value when there is none (log 4). -/
def rngByte (s : State) : Byte :=
  match s.rngIn with
  | b :: _ => b
  | [] => Config.freeRng s.rngDraws

/-- The state after a sample of `RNG`: the byte is consumed, so every draw is fresh (R111). -/
def rngConsume (s : State) : State :=
  match s.rngIn with
  | _ :: rest => { s with rngIn := rest }
  | [] => { s with rngDraws := s.rngDraws + 1 }

end Sys2Proof.Machine
end

