-- ==== Sys2Proof/Machine/Flags.lean ====
section
/-! DEFINITION. Every value an instruction writes to `VF` as a flag (spec/10_state.md R16). -/

namespace Sys2Proof.Machine

/-- A condition as a flag byte: 1 or 0. -/
def flagByte (c : Bool) : Byte := if c then 1 else 0

/-- `8xy4`: the carry out of bit 7, `a + b > 255` on naturals (R8, R106). -/
def carryFlag (a b : Byte) : Byte := flagByte (decide (255 < a.toNat + b.toNat))

/-- `8xy5` on `(a, b)` and `8xy7` on `(b, a)`: 1 when there is no borrow, the minuend at least the subtrahend
(R107, R109). -/
def noBorrowFlag (minuend subtrahend : Byte) : Byte := flagByte (decide (subtrahend.toNat ≤ minuend.toNat))

/-- `8xy6`: bit 0 of the value shifted (R108). -/
def shiftedOutRight (t : Byte) : Byte := flagByte (t.getLsbD 0)

/-- `8xyE`: bit 7 of the value shifted (R110). -/
def shiftedOutLeft (t : Byte) : Byte := flagByte (t.getLsbD 7)

/-- `8xy1`, `8xy2`, `8xy3`: `VF <- 0` afterwards when `Q.vfReset = 1`, else `VF` is not written (R103 to R105). -/
def vfResetAfter (s : State) : State := if s.quirks.vfReset then s.setV vf 0 else s

/-- `Dxyn`: in hires the number of sprite rows with a collision, in lores 1 if there was one and else 0 (R135). -/
def collisionFlag (mode : DisplayMode) (rowsHit : Nat) : Byte :=
  match mode with
  | .hires => BitVec.ofNat 8 rowsHit
  | .lores => flagByte (decide (0 < rowsHit))

end Sys2Proof.Machine
end

