-- ==== Sys2Proof/Machine/Operands.lean ====
section
/-! DEFINITION. The operand forms: how each operand of spec/30_encoding.md R68 is turned into a value, every value
sampled from the state after the fetch-advance and before any write (spec/00_scope.md R9). -/

namespace Sys2Proof.Machine

/-- `nnn` as an address: `zext_16(nnn)` (R68). -/
def addrOperand (nnn : Addr12) : Word := nnn.zeroExtend 16

/-- A register widened for 16-bit arithmetic: `zext_16(V[r])` (R7). -/
def wideReg (s : State) (r : Reg) : Word := (s.getV r).zeroExtend 16

/-- The register `Bnnn` adds: `V[x]` under `Q.jumping`, else `V[0]` (R27, R97). -/
def jumpReg (s : State) (x : Reg) : Reg := if s.quirks.jumping then x else 0

/-- The value `8xy6` and `8xyE` shift: `V[y]` under `Q.legacy`, else `V[x]` (R27, R108, R110). -/
def shiftSource (s : State) (x y : Reg) : Byte := if s.quirks.legacy then s.getV y else s.getV x

/-- The key an instruction names: the low four bits of `V[x]` (spec/45_keypad_timers.md, Key index; D15). -/
def keyIndex (s : State) (x : Reg) : Nat := (s.getV x).toNat % 16

/-- The base address of an access through `I`: a natural, not reduced (R46). -/
def indexBase (s : State) : Nat := s.i.toNat

/-- How many bytes `Fx55` and `Fx65` move: `x + 1` (R68). -/
def blockLen (x : Reg) : Nat := x.val + 1

/-- The registers `V[0]` to `V[x]` in ascending order (R124). -/
def blockRegs (s : State) (x : Reg) : List Byte := s.v.toList.take (blockLen x)

/-- The register file with `V[0]` to `V[x]` loaded from ascending addresses at `base` (R125). -/
def blockLoaded (s : State) (x : Reg) (base : Nat) : Vector Byte 16 :=
  Vector.ofFn (fun r : Fin 16 => if r ≤ x then s.mem.read (base + r.val) else s.getV r)

/-- `I` after a block transfer: `I + x + 1` under `Q.legacy`, else unchanged (R27, R124, R125). -/
def blockIndex (s : State) (x : Reg) : Word :=
  if s.quirks.legacy then s.i + BitVec.ofNat 16 (blockLen x) else s.i

/-- The address of the small-font glyph `V[x]`: `0x050 + 5 * V[x]`, the whole byte unmasked (R122). -/
def glyphAddr (s : State) (x : Reg) : Word := BitVec.ofNat 16 (Config.fontBase + 5 * (s.getV x).toNat)

/-- The three decimal digits of a byte, hundreds first (R123). -/
def decimalDigits (b : Byte) : List Byte :=
  [BitVec.ofNat 8 (b.toNat / 100), BitVec.ofNat 8 (b.toNat / 10 % 10), BitVec.ofNat 8 (b.toNat % 10)]

end Sys2Proof.Machine
end

