-- ==== Sys2Proof/Machine/Alu.lean ====
section
/-! DEFINITION. Load immediate and ALU: `6xnn`, `7xnn`, `8xy0` to `8xy7`, `8xyE`, `Cxnn` (spec/42_alu.md). Operands are
sampled before any write; the writes stand in the rule's order, which decides the forms with `x = F` (R9). -/

namespace Sys2Proof.Machine

/-- `6xnn` LD Vx, nn (R100). -/
def execLdImm (x : Reg) (nn : Byte) (s : State) : Outcome := .next (s.setV x nn)

/-- `7xnn` ADD Vx, nn: mod 256, no flag (R101). -/
def execAddImm (x : Reg) (nn : Byte) (s : State) : Outcome := .next (s.setV x (s.getV x + nn))

/-- `8xy0` LD Vx, Vy (R102). -/
def execLdReg (x y : Reg) (s : State) : Outcome := .next (s.setV x (s.getV y))

/-- `8xy1` OR Vx, Vy: the result, then `VF <- 0` under `Q.vfReset` (R103). -/
def execOrReg (x y : Reg) (s : State) : Outcome := .next (vfResetAfter (s.setV x (s.getV x ||| s.getV y)))

/-- `8xy2` AND Vx, Vy (R104). -/
def execAndReg (x y : Reg) (s : State) : Outcome := .next (vfResetAfter (s.setV x (s.getV x &&& s.getV y)))

/-- `8xy3` XOR Vx, Vy (R105). -/
def execXorReg (x y : Reg) (s : State) : Outcome := .next (vfResetAfter (s.setV x (s.getV x ^^^ s.getV y)))

/-- `8xy4` ADD Vx, Vy: the carry flag, then the sum (R106). -/
def execAddReg (x y : Reg) (s : State) : Outcome :=
  .next ((s.setV vf (carryFlag (s.getV x) (s.getV y))).setV x (s.getV x + s.getV y))

/-- `8xy5` SUB Vx, Vy: the no-borrow flag, then the difference (R107). -/
def execSubReg (x y : Reg) (s : State) : Outcome :=
  .next ((s.setV vf (noBorrowFlag (s.getV x) (s.getV y))).setV x (s.getV x - s.getV y))

/-- `8xy6` SHR Vx, Vy: the result, then the bit shifted out (R108). -/
def execShr (x y : Reg) (s : State) : Outcome :=
  .next ((s.setV x (shiftSource s x y >>> 1)).setV vf (shiftedOutRight (shiftSource s x y)))

/-- `8xy7` SUBN Vx, Vy: the no-borrow flag, then the reverse difference (R109). -/
def execSubn (x y : Reg) (s : State) : Outcome :=
  .next ((s.setV vf (noBorrowFlag (s.getV y) (s.getV x))).setV x (s.getV y - s.getV x))

/-- `8xyE` SHL Vx, Vy: the result, then the bit shifted out (R110). -/
def execShl (x y : Reg) (s : State) : Outcome :=
  .next ((s.setV x (shiftSource s x y <<< 1)).setV vf (shiftedOutLeft (shiftSource s x y)))

/-- `Cxnn` RND Vx, nn: a fresh sample of `RNG`, masked (R111). -/
def execRnd (x : Reg) (nn : Byte) (s : State) : Outcome := .next ((rngConsume s).setV x (rngByte s &&& nn))

end Sys2Proof.Machine
end

