-- ==== Sys2Proof/Machine/ControlFlow.lean ====
section
/-! DEFINITION. Control transfer: `00EE`, `1nnn`, `2nnn`, `3xnn`, `4xnn`, `5xy0`, `9xy0`, `Bnnn`
(spec/41_control_flow.md). `PC` has been advanced past the instruction already. -/

namespace Sys2Proof.Machine

/-- `00EE` RET (R90). -/
def execRet (s : State) : Outcome := returnFromCall s

/-- `1nnn` JP nnn (R91). -/
def execJp (nnn : Addr12) (s : State) : Outcome := .next (s.setPc (addrOperand nnn))

/-- `2nnn` CALL nnn, on this hardware's stack of 16 entries (R92). -/
def execCall (nnn : Addr12) (s : State) : Outcome := callTo Config.stackDepth (addrOperand nnn) s

/-- `3xnn` SE Vx, nn (R93). -/
def execSeImm (x : Reg) (nn : Byte) (s : State) : Outcome := .next (skipIf (s.getV x == nn) s)

/-- `4xnn` SNE Vx, nn (R94). -/
def execSneImm (x : Reg) (nn : Byte) (s : State) : Outcome := .next (skipIf (s.getV x != nn) s)

/-- `5xy0` SE Vx, Vy (R95). -/
def execSeReg (x y : Reg) (s : State) : Outcome := .next (skipIf (s.getV x == s.getV y) s)

/-- `9xy0` SNE Vx, Vy (R96). -/
def execSneReg (x y : Reg) (s : State) : Outcome := .next (skipIf (s.getV x != s.getV y) s)

/-- `Bnnn` JP V0, nnn: a 16-bit sum, not reduced to 12 bits (R97). -/
def execJpV0 (x : Reg) (nnn : Addr12) (s : State) : Outcome :=
  .next (s.setPc (addrOperand nnn + wideReg s (jumpReg s x)))

end Sys2Proof.Machine
end

