-- ==== Sys2Proof/Machine/Display.lean ====
section
/-! DEFINITION. System and display control: `00E0`, `00FD`, `00FE`, `00FF` (spec/40_system_display_control.md). -/

namespace Sys2Proof.Machine

/-- `00E0` CLS: the whole backing grid is cleared in either mode (R80). -/
def execCls (s : State) : Outcome := .next (s.setFb blankFb)

/-- `00FD` EXIT: `RUN <- STOPPED` (R81). -/
def execExit (s : State) : Outcome := .next { s with run := .stopped }

/-- `00FE` LOW: `MODE <- 0`, the framebuffer kept (R82). -/
def execLow (s : State) : Outcome := .next { s with mode := .lores }

/-- `00FF` HIGH: `MODE <- 1`, the framebuffer kept (R83). -/
def execHigh (s : State) : Outcome := .next { s with mode := .hires }

end Sys2Proof.Machine
end

