-- ==== Sys2Proof/Machine/Draw.lean ====
section
/-! DEFINITION. The sprite draw `Dxyn` (spec/44_draw.md R130 to R136): the loops of R136 as folds over rows and
columns. -/

namespace Sys2Proof.Machine

/-- What a draw samples before it writes anything, and the geometry of R131. -/
structure Sprite where
  /-- `MODE`. -/
  mode : DisplayMode
  /-- `Q.clipping`. -/
  clip : Bool
  /-- `W`, the width of the logical grid. -/
  width : Nat
  /-- `H`, its height. -/
  height : Nat
  /-- `R`, the number of sprite rows. -/
  rows : Nat
  /-- `B`, the bytes of one row. -/
  rowBytes : Nat
  /-- `V[x]`, the column of the sprite's left edge. -/
  vx : Nat
  /-- `V[y]`, the row of its top edge. -/
  vy : Nat
  /-- `I`, where the sprite's bytes lie. -/
  base : Nat
deriving DecidableEq, Repr

/-- The logical width of a mode (R22, R131). -/
def gridWidth : DisplayMode → Nat
  | .lores => Config.loresWidth
  | .hires => Config.fbWidth

/-- The logical height of a mode (R22, R131). -/
def gridHeight : DisplayMode → Nat
  | .lores => Config.loresHeight
  | .hires => Config.fbHeight

/-- The number of sprite rows: 16 for `n = 0` in hires, else `n` (R131). -/
def spriteRows (mode : DisplayMode) (n : Fin 16) : Nat :=
  match mode with
  | .lores => n.val
  | .hires => if n = 0 then 16 else n.val

/-- The bytes of a sprite row: 2 for `n = 0` in hires, else 1 (R131). -/
def spriteRowBytes (mode : DisplayMode) (n : Fin 16) : Nat :=
  match mode with
  | .lores => 1
  | .hires => if n = 0 then 2 else 1

/-- The operands and geometry of `Dxyn` in a state (R131, R136). -/
def spriteOf (x y : Reg) (n : Fin 16) (s : State) : Sprite where
  mode := s.mode
  clip := s.quirks.clipping
  width := gridWidth s.mode
  height := gridHeight s.mode
  rows := spriteRows s.mode n
  rowBytes := spriteRowBytes s.mode n
  vx := (s.getV x).toNat
  vy := (s.getV y).toNat
  base := indexBase s

/-- `L = R * B`, the bytes the sprite occupies (R132). -/
def spriteLen (sp : Sprite) : Nat := sp.rows * sp.rowBytes

/-- Sprite pixel `(c, r)`: bit `7 - (c mod 8)` of the byte at `base + r*B + (c div 8)` (R131). -/
def spriteBit (sp : Sprite) (m : Memory) (r c : Nat) : Bool :=
  (m.read (sp.base + r * sp.rowBytes + c / 8)).getLsbD (7 - c % 8)

/-- Where sprite pixel `(c, r)` lands, column and row: skipped outside the grid when clipping, else wrapped (R133). -/
def spriteTarget (sp : Sprite) (r c : Nat) : Option (Nat × Nat) :=
  if sp.clip then
    if sp.width ≤ sp.vx + c ∨ sp.height ≤ sp.vy + r then none else some (sp.vx + c, sp.vy + r)
  else some ((sp.vx + c) % sp.width, (sp.vy + r) % sp.height)

/-- A logical pixel was on: in lores only the top-left pixel of its block counts (R134). -/
def logicalHit (mode : DisplayMode) (fb : FrameBuffer) (tx ty : Nat) : Bool :=
  match mode with
  | .hires => fbPixel fb tx ty
  | .lores => fbPixel fb (2 * tx) (2 * ty)

/-- XOR a logical pixel: one backing pixel in hires, each of the four of its block in lores (R134). -/
def logicalFlip (mode : DisplayMode) (fb : FrameBuffer) (tx ty : Nat) : FrameBuffer :=
  match mode with
  | .hires => fbFlip fb tx ty
  | .lores =>
    fbFlip (fbFlip (fbFlip (fbFlip fb (2 * tx) (2 * ty)) (2 * tx + 1) (2 * ty)) (2 * tx) (2 * ty + 1))
      (2 * tx + 1) (2 * ty + 1)

/-- One sprite pixel: a 1 bit with a target flips it and may mark the row as hit (R136). -/
def drawPixel (sp : Sprite) (m : Memory) (r : Nat) (acc : FrameBuffer × Bool) (c : Nat) : FrameBuffer × Bool :=
  if spriteBit sp m r c then
    match spriteTarget sp r c with
    | none => acc
    | some (tx, ty) => (logicalFlip sp.mode acc.1 tx ty, acc.2 || logicalHit sp.mode acc.1 tx ty)
  else acc

/-- One sprite row: its pixels from left to right, and whether one of them collided (R136). -/
def drawRow (sp : Sprite) (m : Memory) (fb : FrameBuffer) (r : Nat) : FrameBuffer × Bool :=
  (List.range (8 * sp.rowBytes)).foldl (drawPixel sp m r) (fb, false)

/-- The whole sprite from the top row down, counting the rows that collided (R136). -/
def drawSprite (sp : Sprite) (m : Memory) (fb : FrameBuffer) : FrameBuffer × Nat :=
  (List.range sp.rows).foldl
    (fun acc r => ((drawRow sp m acc.1 r).1, acc.2 + (drawRow sp m acc.1 r).2.toNat)) (fb, 0)

/-- A draw whose bytes are all in memory: the framebuffer, then `VF` once (R135, R136). -/
def drawInto (sp : Sprite) (s : State) : State :=
  (s.setFb (drawSprite sp s.mem s.fb).1).setV vf (collisionFlag sp.mode (drawSprite sp s.mem s.fb).2)

/-- `Dxyn` DRW Vx, Vy, n (R130 to R136). -/
def execDrw (x y : Reg) (n : Fin 16) (s : State) : Outcome :=
  guardRange (indexBase s) (spriteLen (spriteOf x y n s)) s (.next (drawInto (spriteOf x y n s) s))

end Sys2Proof.Machine
end

