-- ==== Sys2Proof/Machine/IndexMemory.lean ====
section
/-! DEFINITION. Index register and memory transfer: `Annn`, `Fx1E`, `Fx29`, `Fx33`, `Fx55`, `Fx65`
(spec/43_index_memory.md). The bounds check is made on the whole range before any effect (R48). -/

namespace Sys2Proof.Machine

/-- `Annn` LD I, nnn (R120). -/
def execLdI (nnn : Addr12) (s : State) : Outcome := .next (s.setI (addrOperand nnn))

/-- `Fx1E` ADD I, Vx: mod 2^16, no flag (R121). -/
def execAddI (x : Reg) (s : State) : Outcome := .next (s.setI (s.i + wideReg s x))

/-- `Fx29` LD F, Vx (R122). -/
def execLdF (x : Reg) (s : State) : Outcome := .next (s.setI (glyphAddr s x))

/-- `Fx33` LD B, Vx: the three digits at `I`, `I + 1`, `I + 2` (R123). -/
def execLdB (x : Reg) (s : State) : Outcome :=
  guardRange (indexBase s) 3 s
    (.next (s.setMem (s.mem.writeBytes (indexBase s) (decimalDigits (s.getV x)))))

/-- `Fx55` LD [I], Vx: store `V[0]` to `V[x]`, then `I` advances in legacy mode (R124). -/
def execStoreRegs (x : Reg) (s : State) : Outcome :=
  guardRange (indexBase s) (blockLen x) s
    (.next ((s.setMem (s.mem.writeBytes (indexBase s) (blockRegs s x))).setI (blockIndex s x)))

/-- `Fx65` LD Vx, [I]: load `V[0]` to `V[x]`, then `I` advances in legacy mode (R125). -/
def execLoadRegs (x : Reg) (s : State) : Outcome :=
  guardRange (indexBase s) (blockLen x) s
    (.next { s with v := blockLoaded s x (indexBase s), i := blockIndex s x })

end Sys2Proof.Machine
end

