-- ==== Sys2Proof/Machine/Keypad.lean ====
section
/-! DEFINITION. Keypad and timers: `Ex9E`, `ExA1`, `Fx07`, `Fx0A`, `Fx15`, `Fx18` (spec/45_keypad_timers.md). -/

namespace Sys2Proof.Machine

/-- `Ex9E` SKP Vx (R140). -/
def execSkp (x : Reg) (s : State) : Outcome := .next (skipIf (keyDown s (keyIndex s x)) s)

/-- `ExA1` SKNP Vx (R141). -/
def execSknp (x : Reg) (s : State) : Outcome := .next (skipIf (!keyDown s (keyIndex s x)) s)

/-- `Fx07` LD Vx, DT (R142). -/
def execLdVxDt (x : Reg) (s : State) : Outcome := .next (s.setV x s.dt)

/-- `Fx0A` LD Vx, K: back to the same instruction while no key is pressed, else the least pressed key (R143). -/
def execLdVxK (x : Reg) (s : State) : Outcome :=
  match lowestKey s with
  | none => .next (s.setPc (s.pc - 2))
  | some k => .next (s.setV x (BitVec.ofNat 8 k.val))

/-- `Fx15` LD DT, Vx (R144). -/
def execLdDtVx (x : Reg) (s : State) : Outcome := .next { s with dt := s.getV x }

/-- `Fx18` LD ST, Vx (R145). -/
def execLdStVx (x : Reg) (s : State) : Outcome := .next { s with st := s.getV x }

end Sys2Proof.Machine
end

