-- ==== Sys2Proof/Machine/Step.lean ====
section
/-! DEFINITION. One `step` event (spec/30_encoding.md R70; spec/60_exceptions.md R159), and the placing of an
instruction where the next step fetches it. -/

namespace Sys2Proof.Machine

/-- A step of a machine that is not RUNNING: no state change, `REPORT` is `None` (R159). -/
def idleStep (s : State) : Outcome := .next { s with report := .none }

/-- Decode the fetched word and execute it after the fetch-advance; an unknown word is reported and skipped
(R66, R70). -/
def runFetched (s : State) : Outcome :=
  match decodeWord (fetchWord s) with
  | .ok i => exec i (fetchAdvance s)
  | .error _ => raise (.unknownOpcode (fetchWord s)) (fetchAdvance s)

/-- The `step` event (R70): nothing unless RUNNING; a fetch outside memory is reported and changes nothing else (R47,
log 2); else fetch, advance, decode, execute. -/
def step (s : State) : Host.Outcome State Fault Refusal :=
  match s.run with
  | .running => if fetchFaults s then raise (.memoryFault (faultAddr s.pc.toNat)) s else runFetched s
  | .paused => idleStep s
  | .stopped => idleStep s

/-- `s` with the instruction whose bits are `w` (numbered as the opcode table numbers them) stored at `PC`, high byte
first (R43), so that the next step fetches and runs it: RUNNING, and `PC` moved to the entry point if it cannot be
fetched from (log 19). -/
def State.withFetchWord (s : State) (nbits w : Nat) : State :=
  { s with
    run := .running
    pc := if fetchFaults s then 0x0200 else s.pc
    mem := s.mem.writeBytes (if fetchFaults s then Config.progBase else s.pc.toNat)
      [highByte (tableWord nbits w), lowByte (tableWord nbits w)] }

end Sys2Proof.Machine
end

