-- ==== Sys2Proof/Machine/Events.lean ====
section
/-! DEFINITION. The events of spec/60_exceptions.md R157: the machine changes state only through these, each atomic, in
whatever order the environment produces. A run is a list of events (log 11). -/

namespace Sys2Proof.Machine

/-- The construction inputs, read by the reset event alone (R29, R180). The fonts carry the lengths of R5, so a font of
another length cannot be given. -/
structure ResetInputs where
  /-- `ROM`: raw bytes. -/
  rom : List Byte
  /-- `INITIAL_HIRES`. -/
  initialHires : Bool
  /-- `FONT_SMALL`, with the table of R181 as default. -/
  smallFont : { l : List Byte // l.length = 80 } := ⟨fontSmall, by decide⟩
  /-- `FONT_LARGE`, OPEN: a list, or none where it is not given and its bytes are unknown (R181, U14; log 6). -/
  largeFont : Option { l : List Byte // l.length ≤ Config.fontLargeMax }
deriving DecidableEq, Repr

/-- The bytes reset puts at `0x0A0` to `0x1FF`: a given `FONT_LARGE` and then 0 (R34, R41), none where it is not given,
which leaves them unknown (R181, U14; log 6). -/
def fontLargeImage : Option { l : List Byte // l.length ≤ Config.fontLargeMax } → List Byte
  | none => []
  | some f => f.val ++ List.replicate (Config.fontLargeMax - f.val.length) 0

/-- The memory image of R181: zero, then the two fonts, then the ROM. -/
def resetMemory (inp : ResetInputs) : Memory :=
  (((⟨[]⟩ : Memory).writeBytes Config.fontBase inp.smallFont.val).writeBytes Config.fontLargeBase
    (fontLargeImage inp.largeFont)).writeBytes Config.progBase inp.rom

/-- `MODE` from `INITIAL_HIRES` (R22, R180). -/
def initialMode (hires : Bool) : DisplayMode := if hires then .hires else .lores

/-- The `reset` event (R180): a ROM that is too large leaves no machine (R182, log 12); otherwise the full state of R34
and nothing of the state before. The input ports are not state: their levels stay as the environment set them
(log 13). -/
def resetEvent (inp : ResetInputs) (s : State) : Outcome :=
  if Config.romMax < inp.rom.length then .fault .romTooLarge
  else .next { State.reset with
    mem := resetMemory inp
    mode := initialMode inp.initialHires
    keys := s.keys
    quirks := s.quirks
    rngIn := s.rngIn
    rngDraws := s.rngDraws }

/-- A timer one tick later: clamped at 0 (R17, R160). -/
def countDown (t : Byte) : Byte := if t = 0 then 0 else t - 1

/-- The `tick` event (R160). -/
def tickEvent (s : State) : State :=
  match s.run with
  | .running => { s with dt := countDown s.dt, st := countDown s.st }
  | .paused => s
  | .stopped => s

/-- The `pause_toggle` event (R161). -/
def pauseToggleEvent (s : State) : State :=
  match s.run with
  | .running => { s with run := .paused }
  | .paused => { s with run := .running }
  | .stopped => s

/-- The `stop` event (R162). -/
def stopEvent (s : State) : State := { s with run := .stopped }

/-- One event (R157). The last three are the environment's changes of an input: `KEY` (R26), `Q` (R27) and one more
byte lined up on `RNG` (R28, R183). -/
inductive Event where
  | reset (inp : ResetInputs)
  | step
  | tick
  | pauseToggle
  | stop
  | setKeys (keys : BitVec 16)
  | setQuirks (q : Quirks)
  | supplyRandom (b : Byte)
deriving DecidableEq, Repr

/-- What an event does (R157). Only a failed reset has no next state (R182). -/
def applyEvent (e : Event) (s : State) : Outcome :=
  match e with
  | .reset inp => resetEvent inp s
  | .step => Sys2Proof.Machine.step s
  | .tick => .next (tickEvent s)
  | .pauseToggle => .next (pauseToggleEvent s)
  | .stop => .next (stopEvent s)
  | .setKeys k => .next { s with keys := k }
  | .setQuirks q => .next { s with quirks := q }
  | .supplyRandom b => .next { s with rngIn := s.rngIn ++ [b] }

/-- A run: any sequence of events, in order (R157). -/
def applyEvents : List Event → State → Outcome
  | [], s => .next s
  | e :: es, s =>
    match applyEvent e s with
    | .next t => applyEvents es t
    | .fault f => .fault f
    | .refused r => .refused r

end Sys2Proof.Machine
end

