-- ==== Sys2Proof/Machine/Outputs.lean ====
section
/-! DEFINITION. The output ports (spec/10_state.md R31 to R33; spec/60_exceptions.md R150). -/

namespace Sys2Proof.Machine

/-- `DISP_W` (R31). -/
def dispW (s : State) : Nat := gridWidth s.mode

/-- `DISP_H` (R31). -/
def dispH (s : State) : Nat := gridHeight s.mode

/-- `pixelAt(x, y)` in the logical coordinates of the current mode; in lores the top-left pixel of the block. Outside
the ranges it is not defined (R31), and the model gives no value (log 15). -/
def pixelAt (s : State) (x y : Nat) : Option Bool :=
  if x < dispW s ∧ y < dispH s then some (logicalHit s.mode s.fb x y) else none

/-- `SOUND`: 1 exactly when `ST > 0` (R32). -/
def sound (s : State) : Bool := decide (0 < s.st.toNat)

/-- The port code of a report (R150; the spec's own numbers, D30). -/
def reportCode : Report → Nat
  | .none => 0
  | .unknownOpcode _ => 1
  | .stackUnderflow => 2
  | .memoryFault _ => 3
  | .stackOverflow => 4

end Sys2Proof.Machine
end

