-- ==== Sys2Proof/Safety.lean ====
section
/-! DEFINITION. What counts as a safe run and the terms claims are stated in: the invariant of the machine, the strict
reading of reports (spec/93_implementation_defined.md Part 3), the end of a run (spec/70_reset_and_hazards.md R187),
and what an instruction leaves unchanged. -/

namespace Sys2Proof.Safety

open Sys2Proof.Machine

/-- The invariant of the machine: memory in canonical form, `PC` in the range of R15, no more return addresses than the
stack holds (R18), and each of them at most `0x1000` (R15, R92). -/
structure Inv (s : State) : Prop where
  mem : s.mem.wf = true
  pc : s.pc.toNat ≤ 0x10FE
  depth : s.stack.length ≤ 16
  entries : ∀ a ∈ s.stack, a.toNat ≤ 0x1000

/-- The strict step (Part 3, way 2): a step that raised a report is a fault, and there is no next state. -/
def strictStep (s : State) : Outcome :=
  match step s with
  | .next t => if t.report = .none then .next t else .fault (.reported t.report)
  | .fault f => .fault f
  | .refused r => .refused r

/-- How a run ended, seen from a state (R187; Part 3). -/
inductive RunEnd where
  /-- `RUN = STOPPED`, the only normal end. -/
  | stopped
  /-- Running, and every later step is the same fetch `MemoryFault` (R47). -/
  | fetchFault
deriving DecidableEq, Repr

/-- The end a state stands at, none while the run can go on (R187; Part 3). -/
def runEnd (s : State) : Option RunEnd :=
  match s.run with
  | .stopped => some .stopped
  | .running => if fetchFaults s then some .fetchFault else none
  | .paused => none

/-- The pieces of state a claim may name as changed, beside the general registers and memory. -/
inductive Part where
  | i
  | pc
  | dt
  | st
  | stack
  | fb
  | mode
  | run
  | report
  | rng
deriving DecidableEq, Repr

/-- The frame of an instruction from `s` to `t`: every register but those of `regs`, every byte of memory but those at
the addresses of `bytes`, and every piece but those of `parts` are as before; the input ports `KEY` and `Q` always. -/
structure Frame (parts : List Part) (regs : List Reg) (bytes : List Nat) (s t : State) : Prop where
  v : ∀ r, r ∉ regs → t.getV r = s.getV r
  mem : ∀ a, a ∉ bytes → t.mem.read a = s.mem.read a
  i : Part.i ∈ parts ∨ t.i = s.i
  pc : Part.pc ∈ parts ∨ t.pc = s.pc
  dt : Part.dt ∈ parts ∨ t.dt = s.dt
  st : Part.st ∈ parts ∨ t.st = s.st
  stack : Part.stack ∈ parts ∨ t.stack = s.stack
  fb : Part.fb ∈ parts ∨ t.fb = s.fb
  mode : Part.mode ∈ parts ∨ t.mode = s.mode
  run : Part.run ∈ parts ∨ t.run = s.run
  report : Part.report ∈ parts ∨ t.report = s.report
  rng : Part.rng ∈ parts ∨ (t.rngIn = s.rngIn ∧ t.rngDraws = s.rngDraws)
  keys : t.keys = s.keys
  quirks : t.quirks = s.quirks

/-- `i` executed in `s` answers exactly the next state that differs from `s` in the report `r` alone: the report was
raised, `PC` keeps its fetch-advanced value and nothing is partly done (R48, R150, R164). -/
def OnlyReports (i : Instr) (r : Report) (s : State) : Prop := exec i s = .next { s with report := r }

/-- `i` stands in the row of the opcode map with this mask and value, and its word matches them (R64). -/
def HasRow (i : Instr) (mask value : Word) : Prop := rowOf i = ⟨mask, value⟩ ∧ encode i &&& mask = value

/-- The register an instruction names as its plain destination, beside the block load (10_state.md section 1, column
"written by"). -/
def plainDest : Instr → Option Reg
  | .ldImm x _ | .addImm x _ | .rnd x _ => some x
  | .ldReg x _ | .orReg x _ | .andReg x _ | .xorReg x _ => some x
  | .addReg x _ | .subReg x _ | .shr x _ | .subn x _ | .shl x _ => some x
  | .ldVxDt x | .ldVxK x => some x
  | .cls | .ret | .exit | .low | .high => none
  | .jp _ | .call _ | .ldI _ | .jpV0 _ _ => none
  | .seImm _ _ | .sneImm _ _ | .seReg _ _ | .sneReg _ _ => none
  | .drw _ _ _ => none
  | .skp _ | .sknp _ | .ldDtVx _ | .ldStVx _ => none
  | .addI _ | .ldF _ | .ldB _ | .storeRegs _ | .loadRegs _ => none

/-- The instruction writes `VF` as a side effect under quirks `q`: the table of R16. -/
def writesFlag (q : Quirks) : Instr → Bool
  | .orReg _ _ | .andReg _ _ | .xorReg _ _ => q.vfReset
  | .addReg _ _ | .subReg _ _ | .shr _ _ | .subn _ _ | .shl _ _ => true
  | .drw _ _ _ => true
  | .cls | .ret | .exit | .low | .high => false
  | .jp _ | .call _ | .ldI _ | .jpV0 _ _ => false
  | .seImm _ _ | .sneImm _ _ | .seReg _ _ | .sneReg _ _ => false
  | .ldImm _ _ | .addImm _ _ | .rnd _ _ | .ldReg _ _ => false
  | .skp _ | .sknp _ | .ldVxDt _ | .ldVxK _ | .ldDtVx _ | .ldStVx _ => false
  | .addI _ | .ldF _ | .ldB _ | .storeRegs _ | .loadRegs _ => false

/-- Which of the four quirk inputs an instruction's effect depends on: the column "affects" of R27. -/
def quirksRead : Instr → Quirks
  | .orReg _ _ | .andReg _ _ | .xorReg _ _ => ⟨true, false, false, false⟩
  | .drw _ _ _ => ⟨false, true, false, false⟩
  | .jpV0 _ _ => ⟨false, false, true, false⟩
  | .shr _ _ | .shl _ _ | .storeRegs _ | .loadRegs _ => ⟨false, false, false, true⟩
  | .cls | .ret | .exit | .low | .high => ⟨false, false, false, false⟩
  | .jp _ | .call _ | .ldI _ => ⟨false, false, false, false⟩
  | .seImm _ _ | .sneImm _ _ | .seReg _ _ | .sneReg _ _ => ⟨false, false, false, false⟩
  | .ldImm _ _ | .addImm _ _ | .rnd _ _ | .ldReg _ _ => ⟨false, false, false, false⟩
  | .addReg _ _ | .subReg _ _ | .subn _ _ => ⟨false, false, false, false⟩
  | .skp _ | .sknp _ | .ldVxDt _ | .ldVxK _ | .ldDtVx _ | .ldStVx _ => ⟨false, false, false, false⟩
  | .addI _ | .ldF _ | .ldB _ => ⟨false, false, false, false⟩

/-! ## The draw in closed form (spec/44_draw.md R131, R133 to R135), without the loops of the meaning -/

/-- `R`, the sprite rows of the table of R131. -/
def drawRows (n : Fin 16) (s : State) : Nat := if s.mode = .hires ∧ n = 0 then 16 else n.val

/-- `B`, the bytes of a row, of the table of R131. -/
def drawRowBytes (n : Fin 16) (s : State) : Nat := if s.mode = .hires ∧ n = 0 then 2 else 1

/-- `W` of the table of R131. -/
def drawWidth (s : State) : Nat := if s.mode = .hires then 128 else 64

/-- `H` of the table of R131. -/
def drawHeight (s : State) : Nat := if s.mode = .hires then 64 else 32

/-- The side of a logical pixel in backing pixels (R134). -/
def pixelSide (s : State) : Nat := if s.mode = .hires then 1 else 2

/-- Sprite pixel `(c, r)` of `Dxyn` is a 1 bit (R131). -/
def SpriteLit (n : Fin 16) (s : State) (r c : Nat) : Prop :=
  (s.mem.read (s.i.toNat + r * drawRowBytes n s + c / 8)).getLsbD (7 - c % 8) = true

/-- Sprite pixel `(c, r)` lands on the logical pixel `(lx, ly)`: as it stands when clipping, and wrapped otherwise
(R133). -/
def Lands (x y : Reg) (s : State) (r c lx ly : Nat) : Prop :=
  if s.quirks.clipping = true then lx = (s.getV x).toNat + c ∧ ly = (s.getV y).toNat + r
  else lx = ((s.getV x).toNat + c) % drawWidth s ∧ ly = ((s.getV y).toNat + r) % drawHeight s

/-- Some 1 bit of sprite row `r` lands on a pixel of the logical grid that is on; in lores the top-left pixel of the
block says so (R134). -/
def RowCollides (x y : Reg) (n : Fin 16) (s : State) (r : Nat) : Prop :=
  ∃ c lx ly, c < 8 * drawRowBytes n s ∧ lx < drawWidth s ∧ ly < drawHeight s ∧ SpriteLit n s r c ∧
    Lands x y s r c lx ly ∧ fbPixel s.fb (pixelSide s * lx) (pixelSide s * ly) = true

/-- `L`, the bytes the sprite occupies, lie in memory or are none (R132). -/
def SpriteInRange (n : Fin 16) (s : State) : Prop :=
  drawRows n s * drawRowBytes n s = 0 ∨ s.i.toNat + drawRows n s * drawRowBytes n s ≤ 0x1000

end Sys2Proof.Safety
end

