-- ==== Sys2Proof/Certificates/Slice0/Obligations.lean ====
section
/-! DEFINITION. The statements about the model, for the provers. Each docstring names the rule of spec/ it formalises, or
says that it is the model's own choice. "Decided in D<n>" says that the rule is one the spec marks as its own decision,
row D<n> of spec/92_eei_decisions.md: such a rule is a rule of the spec, not of its source (log 18). -/

open Sys2Proof Sys2Proof.Machine Sys2Proof.Safety

/-! ## Encoding (spec/30_encoding.md) -/

/-- Words written out from the patterns of R64 decode to the instructions they stand for, and neighbours that differ in a
fixed nibble are unknown (R65).
Decided in D11. -/
def Obligations.WrittenWordsDecode : Prop :=
  decodeWord 0x00E0 = .ok .cls ∧ decodeWord 0x2ABC = .ok (.call 0xABC) ∧
  decodeWord 0x3A05 = .ok (.seImm 10 0x05) ∧ decodeWord 0x81F4 = .ok (.addReg 1 15) ∧
  decodeWord 0xB234 = .ok (.jpV0 2 0x234) ∧ decodeWord 0xD125 = .ok (.drw 1 2 5) ∧
  decodeWord 0xE59E = .ok (.skp 5) ∧ decodeWord 0xF265 = .ok (.loadRegs 2) ∧
  decodeWord 0x01E0 = .error (.unknownOpcode 0x01E0) ∧ decodeWord 0x5121 = .error (.unknownOpcode 0x5121) ∧
  decodeWord 0x8128 = .error (.unknownOpcode 0x8128) ∧ decodeWord 0xF208 = .error (.unknownOpcode 0xF208)

/-- Every well-formed instruction is what its own word decodes to, alone and in front of any bytes: no bit of an
encoding is dropped (R60, R61, R63, R64). -/
def Obligations.DecodeOfEncode : Prop :=
  ∀ (i : Instr), WellFormed i = true →
    decodeWord (encode i) = .ok i ∧ ∀ rest, decode (encodeBytes i ++ rest) = .ok (i, rest)

/-- Every word that decodes is the encoding of what it decodes to, which is well formed and of the row the word matches:
each word has one meaning (R62, R64). -/
def Obligations.EncodeOfDecode : Prop :=
  ∀ (w : Word) (i : Instr), decodeWord w = .ok i →
    encode i = w ∧ WellFormed i = true ∧ rowOf i ∈ opcodeRows ∧ (rowOf i).fits w = true

/-- R62, R66: decode is total; every word matches exactly one row of the map and decodes, or matches none and is the
unknown opcode.
Decided in D11. -/
def Obligations.WordMatchesOneRowOrIsUnknown : Prop :=
  ∀ (w : Word),
    ((∃ r ∈ opcodeRows, r.fits w = true ∧ ∀ r' ∈ opcodeRows, r'.fits w = true → r' = r) ∧
      ∃ i, decodeWord w = .ok i) ∨
    ((∀ r ∈ opcodeRows, r.fits w = false) ∧ decodeWord w = .error (.unknownOpcode w))

/-! ## The step -/

/-- R70, with R43 and R159: the whole step algorithm, case by case; an instruction that reports leaves everything but
`PC` as it was.
Decided in D28. -/
def Obligations.StepAlgorithm : Prop :=
  ∀ (s : State),
    (s.run ≠ .running → step s = .next { s with report := .none }) ∧
    (s.run = .running → 0xFFF < s.pc.toNat + 1 →
      step s = .next { s with report := .memoryFault (max s.pc.toNat 0x1000) }) ∧
    (s.run = .running → s.pc.toNat + 1 ≤ 0xFFF → ∀ w : Word,
      w.toNat = (s.mem.read s.pc.toNat).toNat * 256 + (s.mem.read (s.pc.toNat + 1)).toNat →
        (∀ i, decodeWord w = .ok i → step s = exec i { s with pc := s.pc + 2, report := .none } ∧
          ∀ t, step s = .next t → t.report ≠ .none → t = { s with pc := s.pc + 2, report := t.report }) ∧
        (∀ e, decodeWord w = .error e →
          step s = .next { s with pc := s.pc + 2, report := .unknownOpcode w }))

/-- When the bytes at `PC` decode to a well-formed instruction, a running step is `exec` of that instruction after the
fetch-advance, with `REPORT` cleared (R70). -/
def Obligations.StepRunsDecodedInstruction : Prop :=
  ∀ (s : State) (i : Instr), s.run = .running → s.pc.toNat ≤ 0xFFE → WellFormed i = true →
    decode [s.mem.read s.pc.toNat, s.mem.read (s.pc.toNat + 1)] = .ok (i, []) →
      step s = exec i { s with pc := s.pc + 2, report := .none }

/-- R47: a fetch with `PC >= 0xFFF` changes nothing, reports `MemoryFault(max(PC, 0x1000))`, and the next step does the
same; `RUN` stays RUNNING.
Decided in D5. -/
def Obligations.FetchFaultRepeats : Prop :=
  ∀ (s : State), s.run = .running → 0xFFF ≤ s.pc.toNat →
    ∃ t, step s = .next t ∧ t.report = .memoryFault (max s.pc.toNat 0x1000) ∧ t.run = .running ∧
      Frame [.report] [] [] s t ∧ step t = .next t

/-- R66, R151: a fetched word that matches no row of the opcode map changes nothing but the fetch-advance and is
reported.
Decided in D11. -/
def Obligations.UnknownOpcodeIsReportedNoop : Prop :=
  ∀ (s : State), s.run = .running → s.pc.toNat + 1 ≤ 0xFFF → ∀ w : Word,
    w.toNat = (s.mem.read s.pc.toNat).toNat * 256 + (s.mem.read (s.pc.toNat + 1)).toNat →
    (∀ r ∈ opcodeRows, w &&& r.mask ≠ r.value) →
      step s = .next { s with pc := s.pc + 2, report := .unknownOpcode w }

/-- An instruction placed with `withFetchWord` is the one the very next step runs (derived from R43, R70; log 19). -/
def Obligations.PlacedInstructionRunsNext : Prop :=
  ∀ (s : State) (i : Instr), WellFormed i = true →
    step (s.withFetchWord 16 (encode i).toNat) = exec i (fetchAdvance (s.withFetchWord 16 (encode i).toNat))

/-- R164: after a step that raised a report the state is exactly the state before with `PC` advanced by 2, or not at all
for a fetch fault.
Decided in D3, D5, D6, D37. -/
def Obligations.ReportingStepIsPrecise : Prop :=
  ∀ (s t : State), s.run = .running → step s = .next t → t.report ≠ .none →
    t = { s with report := t.report, pc := if 0xFFF ≤ s.pc.toNat then s.pc else s.pc + 2 }

/-- The table of R150 with R151 to R154: a step raises a report exactly when its condition holds, with the payload the
table gives.
Decided in D3, D5, D6. -/
def Obligations.ReportsHaveTheirCauses : Prop :=
  ∀ (s t : State), s.run = .running → step s = .next t →
    (∀ w, t.report = .unknownOpcode w ↔
      s.pc.toNat ≤ 0xFFE ∧ w = fetchWord s ∧ ∀ r ∈ opcodeRows, r.fits w = false) ∧
    (t.report = .stackUnderflow ↔ s.pc.toNat ≤ 0xFFE ∧ decodeWord (fetchWord s) = .ok .ret ∧ s.sp = 0) ∧
    (t.report = .stackOverflow ↔
      s.pc.toNat ≤ 0xFFE ∧ (∃ nnn, decodeWord (fetchWord s) = .ok (.call nnn)) ∧ 16 ≤ s.sp) ∧
    (∀ a, t.report = .memoryFault a ↔
      (0xFFF ≤ s.pc.toNat ∧ a = max s.pc.toNat 0x1000) ∨
      (s.pc.toNat ≤ 0xFFE ∧ a = max s.i.toNat 0x1000 ∧ ∃ i, decodeWord (fetchWord s) = .ok i ∧
        ((∃ x, i = .ldB x ∧ 0xFFF < s.i.toNat + 2) ∨
         (∃ x : Reg, (i = .storeRegs x ∨ i = .loadRegs x) ∧ 0xFFF < s.i.toNat + x.val) ∨
         (∃ x y n, i = .drw x y n ∧ ¬ SpriteInRange n s))))

/-- Every instruction completes in every state, and so does every step: no report and no instruction stops the machine
(R150, R165; 20_memory.md R47). -/
def Obligations.EveryStepCompletes : Prop :=
  (∀ (i : Instr) (s : State), ∃ t, exec i s = .next t) ∧ ∀ s : State, ∃ t, step s = .next t

/-- R163, column `step`: a step leaves `RUN` as it is, unless it is RUNNING and executes `00FD`. -/
def Obligations.OnlyExitChangesRunState : Prop :=
  ∀ (s t : State), step s = .next t →
    (t.run = s.run ∨ t.run = .stopped) ∧
    (t.run ≠ s.run ↔ s.run = .running ∧ s.pc.toNat ≤ 0xFFE ∧ decodeWord (fetchWord s) = .ok .exit)

/-! ## Invariants -/

/-- Every step keeps the invariant: canonical memory, `PC` at most `0x10FE`, at most 16 return addresses, each at most
`0x1000` (R15, R18). -/
def Obligations.StepKeepsInvariant : Prop :=
  ∀ (s t : State), Inv s → step s = .next t → Inv t

/-- The invariant holds of the reset state. -/
def Obligations.ResetHasInvariant : Prop := Inv State.reset

/-- Every sequence of events, resets with any ROM and fonts among them, keeps the invariant (R15, R18, R157). -/
def Obligations.EventsKeepInvariant : Prop :=
  ∀ (es : List Event) (s t : State), Inv s → applyEvents es s = .next t → Inv t

/-! ## Whole-machine rules -/

/-- Which instructions write which piece of state: the column "written by" of the table of 10_state.md section 1, row by
row, the general registers first, and the input ports by none (R18, R20, R26, R27). -/
def Obligations.OnlyListedInstructionsWrite : Prop :=
  ∀ (i : Instr) (s t : State), exec i s = .next t →
    (t.v ≠ s.v → (∃ x nn, i = .ldImm x nn ∨ i = .addImm x nn ∨ i = .rnd x nn) ∨
      (∃ x y, i = .ldReg x y ∨ i = .orReg x y ∨ i = .andReg x y ∨ i = .xorReg x y ∨ i = .addReg x y ∨
        i = .subReg x y ∨ i = .shr x y ∨ i = .subn x y ∨ i = .shl x y) ∨
      (∃ x y n, i = .drw x y n) ∨ ∃ x, i = .ldVxDt x ∨ i = .ldVxK x ∨ i = .loadRegs x) ∧
    ((∃ a, t.mem.read a ≠ s.mem.read a) → ∃ x, i = .ldB x ∨ i = .storeRegs x) ∧
    (t.fb ≠ s.fb → i = .cls ∨ ∃ x y n, i = .drw x y n) ∧
    (t.stack ≠ s.stack → i = .ret ∨ ∃ nnn, i = .call nnn) ∧
    (t.mode ≠ s.mode → i = .low ∨ i = .high) ∧
    (t.run ≠ s.run → i = .exit) ∧
    (t.dt ≠ s.dt → ∃ x, i = .ldDtVx x) ∧
    (t.st ≠ s.st → ∃ x, i = .ldStVx x) ∧
    (t.i ≠ s.i → (∃ nnn, i = .ldI nnn) ∨
      ∃ x, i = .addI x ∨ i = .ldF x ∨ (s.quirks.legacy = true ∧ (i = .storeRegs x ∨ i = .loadRegs x))) ∧
    (t.pc ≠ s.pc → i = .ret ∨ (∃ nnn, i = .jp nnn ∨ i = .call nnn) ∨ (∃ x nnn, i = .jpV0 x nnn) ∨
      (∃ x nn, i = .seImm x nn ∨ i = .sneImm x nn) ∨ (∃ x y, i = .seReg x y ∨ i = .sneReg x y) ∨
      ∃ x, i = .skp x ∨ i = .sknp x ∨ i = .ldVxK x) ∧
    t.keys = s.keys ∧ t.quirks = s.quirks

/-- The general registers an instruction can change: its plain destination, the registers up to `x` of a block load, and
`VF` where the table of R16 says so. -/
def Obligations.OnlyNamedRegistersChange : Prop :=
  ∀ (i : Instr) (s t : State) (r : Reg), exec i s = .next t → t.getV r ≠ s.getV r →
    plainDest i = some r ∨ (∃ x, i = .loadRegs x ∧ r ≤ x) ∨ (r = vf ∧ writesFlag s.quirks i = true)

/-- An instruction depends on no quirk input but the ones the table of R27 names for it: with the others changed at will
its effect is the same.
Decided in D13. -/
def Obligations.QuirksAffectOnlyTheirInstructions : Prop :=
  ∀ (i : Instr) (s t : State) (q : Quirks),
    ((quirksRead i).vfReset = true → q.vfReset = s.quirks.vfReset) →
    ((quirksRead i).clipping = true → q.clipping = s.quirks.clipping) →
    ((quirksRead i).jumping = true → q.jumping = s.quirks.jumping) →
    ((quirksRead i).legacy = true → q.legacy = s.quirks.legacy) →
    exec i s = .next t → exec i { s with quirks := q } = .next { t with quirks := q }

/-- A program learns nothing of the display but through `VF` after `Dxyn` (R20): with another picture and another `ST`,
nothing else comes out differently. Of the sound timer it learns nothing at all (R17): with another `ST` alone, the next
state differs in `ST` alone. -/
def Obligations.DisplayAndToneAreWriteOnly : Prop :=
  ∀ (i : Instr) (s t : State) (b : Byte), exec i s = .next t →
    (∀ (u : State) (fb : FrameBuffer), exec i { s with fb := fb, st := b } = .next u →
      (∀ r, ((∀ x y n, i ≠ .drw x y n) ∨ r ≠ vf) → u.getV r = t.getV r) ∧
      u = { t with v := u.v, fb := u.fb, st := u.st }) ∧
    (∀ u, exec i { s with st := b } = .next u → u = { t with st := u.st })

/-! ## System and display control (spec/40_system_display_control.md) -/

/-- R80: `00E0` clears the whole backing grid in either mode and changes nothing else.
Decided in D26. -/
def Obligations.ClsClearsWholeGrid : Prop :=
  HasRow .cls 0xFFFF 0x00E0 ∧
  ∀ s : State, ∃ t, exec .cls s = .next t ∧ (∀ x y, x < 128 → y < 64 → fbPixel t.fb x y = false) ∧
    Frame [.fb] [] [] s t

/-- R81: `00FD` sets `RUN` to STOPPED and changes nothing else; from then on `step`, `tick`, `pause_toggle` and `stop`
change nothing. -/
def Obligations.ExitStopsForGood : Prop :=
  HasRow .exit 0xFFFF 0x00FD ∧
  ∀ s : State, ∃ t, exec .exit s = .next t ∧ t.run = .stopped ∧ Frame [.run] [] [] s t ∧
    applyEvent .step t = .next { t with report := .none } ∧ applyEvent .tick t = .next t ∧
    applyEvent .pauseToggle t = .next t ∧ applyEvent .stop t = .next t ∧ sound t = sound s

/-- R82, R83: `00FE` and `00FF` change the mode alone; the picture stays, and the outputs show it in the new mode's
coordinates.
Decided in D25. -/
def Obligations.ModeSwitchKeepsPicture : Prop :=
  HasRow .low 0xFFFF 0x00FE ∧ HasRow .high 0xFFFF 0x00FF ∧
  ∀ s : State,
    (∃ t, exec .low s = .next t ∧ t.mode = .lores ∧ Frame [.mode] [] [] s t ∧ dispW t = 64 ∧ dispH t = 32 ∧
      ∀ x y, x < 64 → y < 32 → pixelAt t x y = some (fbPixel s.fb (2 * x) (2 * y))) ∧
    (∃ t, exec .high s = .next t ∧ t.mode = .hires ∧ Frame [.mode] [] [] s t ∧ dispW t = 128 ∧ dispH t = 64 ∧
      ∀ x y, x < 128 → y < 64 → pixelAt t x y = some (fbPixel s.fb x y))

/-- R31, R32: the display outputs in the logical coordinates of the mode, and `SOUND` exactly when `ST > 0`.
Decided in D27. -/
def Obligations.OutputsShowState : Prop :=
  ∀ s : State,
    (s.mode = .hires → dispW s = 128 ∧ dispH s = 64 ∧
      ∀ x y, x < 128 → y < 64 → pixelAt s x y = some (fbPixel s.fb x y)) ∧
    (s.mode = .lores → dispW s = 64 ∧ dispH s = 32 ∧
      ∀ x y, x < 64 → y < 32 → pixelAt s x y = some (fbPixel s.fb (2 * x) (2 * y))) ∧
    (sound s = true ↔ 0 < s.st.toNat)

/-! ## Control flow (spec/41_control_flow.md) -/

/-- R90: `00EE` pops the latest return address into `PC`, or reports `StackUnderflow` on an empty stack and changes
nothing.
Decided in D37. -/
def Obligations.RetPopsOrReports : Prop :=
  HasRow .ret 0xFFFF 0x00EE ∧
  ∀ s : State,
    (s.sp = 0 → OnlyReports .ret .stackUnderflow s) ∧
    (0 < s.sp → ∃ t, exec .ret s = .next t ∧ t.sp = s.sp - 1 ∧ s.stackEntry (s.sp - 1) = some t.pc ∧
      (∀ k, k < t.sp → t.stackEntry k = s.stackEntry k) ∧ Frame [.pc, .stack] [] [] s t)

/-- R91: `1nnn` sets `PC` to `nnn` and nothing else; a jump to `0xFFF` makes the next fetch report
`MemoryFault(0x1000)`. -/
def Obligations.JumpSetsPc : Prop :=
  ∀ (nnn : Addr12) (s : State), HasRow (.jp nnn) 0xF000 0x1000 ∧
    ∃ t, exec (.jp nnn) s = .next t ∧ t.pc.toNat = nnn.toNat ∧ Frame [.pc] [] [] s t ∧
      (s.run = .running → nnn = 0xFFF → step t = .next { t with report := .memoryFault 0x1000 })

/-- R92: `2nnn` pushes `PC` and goes to `nnn`, or reports `StackOverflow` when 16 entries are held and changes nothing;
with an unbounded stack it always pushes.
Decided in D6. -/
def Obligations.CallPushesOrReports : Prop :=
  ∀ (nnn : Addr12) (s : State), HasRow (.call nnn) 0xF000 0x2000 ∧
    (s.sp = 16 → OnlyReports (.call nnn) .stackOverflow s) ∧
    (s.sp < 16 → ∃ t, exec (.call nnn) s = .next t ∧ t.sp = s.sp + 1 ∧ t.stackEntry s.sp = some s.pc ∧
      (∀ k, k < s.sp → t.stackEntry k = s.stackEntry k) ∧ t.pc.toNat = nnn.toNat ∧
      Frame [.pc, .stack] [] [] s t) ∧
    (∃ t, callTo none (addrOperand nnn) s = .next t ∧ t.sp = s.sp + 1 ∧ t.stackEntry s.sp = some s.pc ∧
      t.report = s.report)

/-- `2nnn` then, wherever the subroutine has taken `PC`, `00EE` comes back to the instruction after the call with the
stack as it was (95_test_vectors.md S4; from R90, R92). -/
def Obligations.CallThenReturnComesBack : Prop :=
  ∀ (nnn : Addr12) (s : State) (p : Word), s.sp < 16 →
    ∃ t u, exec (.call nnn) s = .next t ∧ exec .ret { t with pc := p } = .next u ∧ u = s

/-- R93 to R96: the four skips on registers and immediates add 2 to `PC` exactly when their comparison holds, and change
nothing else. -/
def Obligations.ComparisonSkips : Prop :=
  ∀ (x y : Reg) (nn : Byte) (s : State),
    (HasRow (.seImm x nn) 0xF000 0x3000 ∧ ∃ t, exec (.seImm x nn) s = .next t ∧ Frame [.pc] [] [] s t ∧
      t.pc = if (s.getV x).toNat = nn.toNat then s.pc + 2 else s.pc) ∧
    (HasRow (.sneImm x nn) 0xF000 0x4000 ∧ ∃ t, exec (.sneImm x nn) s = .next t ∧ Frame [.pc] [] [] s t ∧
      t.pc = if (s.getV x).toNat = nn.toNat then s.pc else s.pc + 2) ∧
    (HasRow (.seReg x y) 0xF00F 0x5000 ∧ ∃ t, exec (.seReg x y) s = .next t ∧ Frame [.pc] [] [] s t ∧
      t.pc = if (s.getV x).toNat = (s.getV y).toNat then s.pc + 2 else s.pc) ∧
    (HasRow (.sneReg x y) 0xF00F 0x9000 ∧ ∃ t, exec (.sneReg x y) s = .next t ∧ Frame [.pc] [] [] s t ∧
      t.pc = if (s.getV x).toNat = (s.getV y).toNat then s.pc else s.pc + 2)

/-- R97: `Bnnn` goes to the unreduced sum of `nnn` and `V[0]`, or `V[x]` with `x` the top nibble of `nnn` when
`Q.jumping = 1`; a sum above `0xFFE` makes the next fetch report.
Decided in D36. -/
def Obligations.JumpWithOffset : Prop :=
  ∀ (x : Reg) (nnn : Addr12) (s : State), WellFormed (.jpV0 x nnn) = true →
    HasRow (.jpV0 x nnn) 0xF000 0xB000 ∧ x.val = nnn.toNat / 256 ∧
    ∃ t, exec (.jpV0 x nnn) s = .next t ∧ Frame [.pc] [] [] s t ∧
      t.pc.toNat = nnn.toNat + (if s.quirks.jumping = true then (s.getV x).toNat else (s.getV 0).toNat) ∧
      (s.run = .running → 0xFFE < t.pc.toNat → step t = .next { t with report := .memoryFault (max t.pc.toNat 0x1000) })

/-! ## Load immediate and ALU (spec/42_alu.md) -/

/-- R100 to R102: load immediate, add immediate mod 256 without a flag, copy a register. -/
def Obligations.LoadAndAddImmediate : Prop :=
  ∀ (x y : Reg) (nn : Byte) (s : State),
    (HasRow (.ldImm x nn) 0xF000 0x6000 ∧ ∃ t, exec (.ldImm x nn) s = .next t ∧ t.getV x = nn ∧
      Frame [] [x] [] s t) ∧
    (HasRow (.addImm x nn) 0xF000 0x7000 ∧ ∃ t, exec (.addImm x nn) s = .next t ∧
      (t.getV x).toNat = ((s.getV x).toNat + nn.toNat) % 256 ∧ Frame [] [x] [] s t) ∧
    (HasRow (.ldReg x y) 0xF00F 0x8000 ∧ ∃ t, exec (.ldReg x y) s = .next t ∧ t.getV x = s.getV y ∧
      Frame [] [x] [] s t)

/-- R103 to R105: the logic operations bit by bit; with `Q.vfReset = 1` `VF` is 0 afterwards, even where it is the
destination; otherwise `VF` is not written.
Decided in D12. -/
def Obligations.LogicOperations : Prop :=
  ∀ (x y : Reg) (s : State) (i : Instr) (f : Bool → Bool → Bool),
    ((i = .orReg x y ∧ f = or) ∨ (i = .andReg x y ∧ f = and) ∨ (i = .xorReg x y ∧ f = xor)) →
    (HasRow (.orReg x y) 0xF00F 0x8001 ∧ HasRow (.andReg x y) 0xF00F 0x8002 ∧ HasRow (.xorReg x y) 0xF00F 0x8003) ∧
    ∃ t, exec i s = .next t ∧
      (s.quirks.vfReset = true → t.getV vf = 0 ∧ Frame [] [x, vf] [] s t) ∧
      (s.quirks.vfReset = false → Frame [] [x] [] s t) ∧
      (s.quirks.vfReset = false ∨ x ≠ vf → ∀ j, j < 8 →
        (t.getV x).getLsbD j = f ((s.getV x).getLsbD j) ((s.getV y).getLsbD j))

/-- R106: `8xy4` leaves the sum mod 256 in `Vx` and, where `x` is not F, the carry in `VF`; where `x` is F the sum wins.
Operands are the values before the instruction.
Decided in D12. -/
def Obligations.AddSetsCarry : Prop :=
  ∀ (x y : Reg) (s : State), HasRow (.addReg x y) 0xF00F 0x8004 ∧
    ∃ t, exec (.addReg x y) s = .next t ∧ (t.getV x).toNat = ((s.getV x).toNat + (s.getV y).toNat) % 256 ∧
      (x ≠ vf → (t.getV vf).toNat = if 255 < (s.getV x).toNat + (s.getV y).toNat then 1 else 0) ∧
      Frame [] [x, vf] [] s t

/-- R107, R109: the differences mod 256, with `VF` 1 exactly when there is no borrow; where `x` is F the difference
wins.
Decided in D12. -/
def Obligations.SubtractSetsNoBorrow : Prop :=
  ∀ (x y : Reg) (s : State),
    (HasRow (.subReg x y) 0xF00F 0x8005 ∧ ∃ t, exec (.subReg x y) s = .next t ∧
      (t.getV x).toNat = ((s.getV x).toNat + 256 - (s.getV y).toNat) % 256 ∧
      (x ≠ vf → (t.getV vf).toNat = if (s.getV y).toNat ≤ (s.getV x).toNat then 1 else 0) ∧
      Frame [] [x, vf] [] s t) ∧
    (HasRow (.subn x y) 0xF00F 0x8007 ∧ ∃ t, exec (.subn x y) s = .next t ∧
      (t.getV x).toNat = ((s.getV y).toNat + 256 - (s.getV x).toNat) % 256 ∧
      (x ≠ vf → (t.getV vf).toNat = if (s.getV x).toNat ≤ (s.getV y).toNat then 1 else 0) ∧
      Frame [] [x, vf] [] s t)

/-- R108, R110: the shifts by one of `V[x]`, or of `V[y]` when `Q.legacy = 1`; `VF` ends as the bit shifted out, also
where `x` is F.
Decided in D12. -/
def Obligations.ShiftsSetLostBit : Prop :=
  ∀ (x y : Reg) (s : State) (v : Nat), v = (s.getV (if s.quirks.legacy = true then y else x)).toNat →
    (HasRow (.shr x y) 0xF00F 0x8006 ∧ ∃ t, exec (.shr x y) s = .next t ∧
      (x ≠ vf → (t.getV x).toNat = v / 2) ∧ (t.getV vf).toNat = v % 2 ∧ Frame [] [x, vf] [] s t) ∧
    (HasRow (.shl x y) 0xF00F 0x800E ∧ ∃ t, exec (.shl x y) s = .next t ∧
      (x ≠ vf → (t.getV x).toNat = v * 2 % 256) ∧ (t.getV vf).toNat = v / 128 ∧ Frame [] [x, vf] [] s t)

/-- `Cxnn` stores a fresh `RNG` sample masked by `nn` (R111): the byte the environment has lined up, which is consumed,
or a free value of the model, which is counted (the queue and the counter are the model's choice, log 4). Bits that are 0
in `nn` are 0 in the result, whatever the sample.
Decided in D14. -/
def Obligations.RandomIsMaskedSample : Prop :=
  ∀ (x : Reg) (nn : Byte) (s : State), HasRow (.rnd x nn) 0xF000 0xC000 ∧
    ∃ t r, exec (.rnd x nn) s = .next t ∧ t.getV x = r &&& nn ∧ (∀ j, nn.getLsbD j = false → (t.getV x).getLsbD j = false) ∧
      (∀ b rest, s.rngIn = b :: rest → r = b ∧ t.rngIn = rest ∧ t.rngDraws = s.rngDraws) ∧
      (s.rngIn = [] → r = Config.freeRng s.rngDraws ∧ t.rngIn = [] ∧ t.rngDraws = s.rngDraws + 1) ∧
      Frame [.rng] [x] [] s t

/-! ## Index register and memory (spec/43_index_memory.md) -/

/-- R120 to R122: `I` from an immediate, by a 16-bit sum without a flag, and as the address of a small-font glyph with the
whole byte unmasked.
Decided in D2, D18. -/
def Obligations.IndexRegisterLoads : Prop :=
  ∀ (x : Reg) (nnn : Addr12) (s : State),
    (HasRow (.ldI nnn) 0xF000 0xA000 ∧ ∃ t, exec (.ldI nnn) s = .next t ∧ t.i.toNat = nnn.toNat ∧
      Frame [.i] [] [] s t) ∧
    (HasRow (.addI x) 0xF0FF 0xF01E ∧ ∃ t, exec (.addI x) s = .next t ∧
      t.i.toNat = (s.i.toNat + (s.getV x).toNat) % 65536 ∧ Frame [.i] [] [] s t) ∧
    (HasRow (.ldF x) 0xF0FF 0xF029 ∧ ∃ t, exec (.ldF x) s = .next t ∧
      t.i.toNat = 0x050 + 5 * (s.getV x).toNat ∧ Frame [.i] [] [] s t)

/-- R123: `Fx33` stores the three decimal digits, hundreds first, at `I` to `I + 2` and changes nothing else; outside
memory it reports and writes nothing.
Decided in D3. -/
def Obligations.DecimalDigitsAreStored : Prop :=
  ∀ (x : Reg) (s : State), HasRow (.ldB x) 0xF0FF 0xF033 ∧
    (0xFFF < s.i.toNat + 2 → OnlyReports (.ldB x) (.memoryFault (max s.i.toNat 0x1000)) s) ∧
    (s.i.toNat + 2 ≤ 0xFFF → ∃ t, exec (.ldB x) s = .next t ∧
      (t.mem.read s.i.toNat).toNat = (s.getV x).toNat / 100 ∧
      (t.mem.read (s.i.toNat + 1)).toNat = (s.getV x).toNat / 10 % 10 ∧
      (t.mem.read (s.i.toNat + 2)).toNat = (s.getV x).toNat % 10 ∧
      Frame [] [] [s.i.toNat, s.i.toNat + 1, s.i.toNat + 2] s t)

/-- R124: `Fx55` stores `V[0]` to `V[x]` at `I` to `I + x` and changes no other byte; `I` advances by `x + 1` when
`Q.legacy = 1` and stays otherwise; outside memory it reports and does nothing.
Decided in D3, D35. -/
def Obligations.BlockStore : Prop :=
  ∀ (x : Reg) (s : State), HasRow (.storeRegs x) 0xF0FF 0xF055 ∧
    (0xFFF < s.i.toNat + x.val → OnlyReports (.storeRegs x) (.memoryFault (max s.i.toNat 0x1000)) s) ∧
    (s.i.toNat + x.val ≤ 0xFFF → ∃ t, exec (.storeRegs x) s = .next t ∧
      (∀ k : Reg, k ≤ x → t.mem.read (s.i.toNat + k.val) = s.getV k) ∧
      t.i.toNat = (if s.quirks.legacy = true then s.i.toNat + x.val + 1 else s.i.toNat) ∧
      Frame [.i] [] ((List.range (x.val + 1)).map (fun k => s.i.toNat + k)) s t)

/-- R125: `Fx65` loads `V[0]` to `V[x]` from `I` to `I + x` and changes no other register and no byte; `I` as in R124;
outside memory it reports and does nothing.
Decided in D3, D35. -/
def Obligations.BlockLoad : Prop :=
  ∀ (x : Reg) (s : State), HasRow (.loadRegs x) 0xF0FF 0xF065 ∧
    (0xFFF < s.i.toNat + x.val → OnlyReports (.loadRegs x) (.memoryFault (max s.i.toNat 0x1000)) s) ∧
    (s.i.toNat + x.val ≤ 0xFFF → ∃ t, exec (.loadRegs x) s = .next t ∧
      (∀ k : Reg, k ≤ x → t.getV k = s.mem.read (s.i.toNat + k.val)) ∧
      t.i.toNat = (if s.quirks.legacy = true then s.i.toNat + x.val + 1 else s.i.toNat) ∧
      Frame [.i] ((List.finRange 16).filter (fun k => decide (k ≤ x))) [] s t)

/-- Registers stored with `Fx55` come back with `Fx65` from the same `I`, whatever the registers held in between, and
registers above `x` are not touched (derived from R124, R125, R49). -/
def Obligations.StoreThenLoadReturnsRegisters : Prop :=
  ∀ (x : Reg) (s : State) (v : Vector Byte 16), s.i.toNat + x.val ≤ 0xFFF →
    ∃ t u, exec (.storeRegs x) s = .next t ∧ exec (.loadRegs x) { t with v := v, i := s.i } = .next u ∧
      ∀ k : Reg, u.getV k = if k ≤ x then s.getV k else v[k]

/-- A word stored with `Fx55` is what the next fetch there reads, with no further action (R54). -/
def Obligations.StoreIsSeenByFetch : Prop :=
  ∀ (x k : Reg) (s : State), s.i.toNat + x.val ≤ 0xFFF → (h : k < x) →
    ∃ t, exec (.storeRegs x) s = .next t ∧ ∀ p : Word, p.toNat = s.i.toNat + k.val →
      (fetchWord { t with pc := p }).toNat =
        (s.getV k).toNat * 256 + (s.getV ⟨k.val + 1, Nat.lt_of_le_of_lt h x.isLt⟩).toNat

/-! ## Draw (spec/44_draw.md) -/

/-- R130, R132: `Dxyn` completes whenever its sprite bytes are in memory (or there are none), and then changes the
framebuffer and `VF` alone; otherwise it reports and does nothing.
Decided in D3. -/
def Obligations.DrawFrameAndFault : Prop :=
  ∀ (x y : Reg) (n : Fin 16) (s : State), HasRow (.drw x y n) 0xF000 0xD000 ∧
    (¬ SpriteInRange n s → OnlyReports (.drw x y n) (.memoryFault (max s.i.toNat 0x1000)) s) ∧
    (SpriteInRange n s → ∃ t, exec (.drw x y n) s = .next t ∧ Frame [.fb] [vf] [] s t)

/-- R131, R133, R134 in closed form: a backing pixel is toggled exactly when some 1 bit of the sprite lands on the logical
pixel it belongs to, in lores the 2 by 2 block, each pixel of it on its own.
Decided in D19 to D23. -/
def Obligations.DrawTogglesSpritePixels : Prop :=
  ∀ (x y : Reg) (n : Fin 16) (s : State), SpriteInRange n s →
    ∃ t, exec (.drw x y n) s = .next t ∧ ∀ X Y, X < 128 → Y < 64 →
      (fbPixel t.fb X Y ≠ fbPixel s.fb X Y ↔
        ∃ r c, r < drawRows n s ∧ c < 8 * drawRowBytes n s ∧ SpriteLit n s r c ∧
          Lands x y s r c (X / pixelSide s) (Y / pixelSide s))

/-- R135: `VF` after a draw is the number of sprite rows with a collision in hires, and 1 or 0 in lores, collisions judged
on the picture before the draw.
Decided in D23, D24. -/
def Obligations.DrawCountsCollisions : Prop :=
  ∀ (x y : Reg) (n : Fin 16) (s : State), SpriteInRange n s →
    ∃ t, exec (.drw x y n) s = .next t ∧
      (s.mode = .hires → (t.getV vf).toNat = Set.ncard { r | r < drawRows n s ∧ RowCollides x y n s r }) ∧
      (s.mode = .lores → (t.getV vf = 1 ∧ ∃ r, r < drawRows n s ∧ RowCollides x y n s r) ∨
        (t.getV vf = 0 ∧ ∀ r, r < drawRows n s → ¬ RowCollides x y n s r))

/-- Drawing the same sprite twice at the same place restores the framebuffer (R136, corner cases; `x` and `y` are not F,
since the first draw writes `VF`). -/
def Obligations.DrawTwiceRestoresPicture : Prop :=
  ∀ (x y : Reg) (n : Fin 16) (s : State), x ≠ vf → y ≠ vf →
    ∃ t u, exec (.drw x y n) s = .next t ∧ exec (.drw x y n) t = .next u ∧ u.fb = s.fb

/-! ## Keypad and timers (spec/45_keypad_timers.md; spec/60_exceptions.md) -/

/-- R140, R141: the skips on the level of the key named by the low four bits of `V[x]`.
Decided in D15. -/
def Obligations.KeySkips : Prop :=
  ∀ (x : Reg) (s : State) (k : Nat), k = (s.getV x).toNat % 16 →
    (HasRow (.skp x) 0xF0FF 0xE09E ∧ ∃ t, exec (.skp x) s = .next t ∧ Frame [.pc] [] [] s t ∧
      t.pc = if s.keys.getLsbD k = true then s.pc + 2 else s.pc) ∧
    (HasRow (.sknp x) 0xF0FF 0xE0A1 ∧ ∃ t, exec (.sknp x) s = .next t ∧ Frame [.pc] [] [] s t ∧
      t.pc = if s.keys.getLsbD k = true then s.pc else s.pc + 2)

/-- R143: with no key pressed `Fx0A` takes `PC` back to itself and changes nothing else; otherwise it stores the least
pressed key and leaves `PC` advanced.
Decided in D16. -/
def Obligations.KeyWaitRetriesOrStores : Prop :=
  ∀ (x : Reg) (s : State), HasRow (.ldVxK x) 0xF0FF 0xF00A ∧
    (s.keys = 0 → ∃ t, exec (.ldVxK x) s = .next t ∧ t.pc = s.pc - 2 ∧ Frame [.pc] [] [] s t) ∧
    (s.keys ≠ 0 → ∃ t, exec (.ldVxK x) s = .next t ∧ s.keys.getLsbD (t.getV x).toNat = true ∧
      (∀ j, j < (t.getV x).toNat → s.keys.getLsbD j = false) ∧ Frame [] [x] [] s t)

/-- A machine waiting in `Fx0A` with no key pressed is where it was after each step (R143, corner cases). -/
def Obligations.WaitingStepStaysPut : Prop :=
  ∀ (s : State) (x : Reg), s.run = .running → s.pc.toNat ≤ 0xFFE → s.report = .none → s.keys = 0 →
    decodeWord (fetchWord s) = .ok (.ldVxK x) → step s = .next s

/-- R142, R144, R145: the delay timer read and written, the sound timer written, nothing else; the tone sounds for as many
ticks as were written.
Decided in D17. -/
def Obligations.TimerTransfers : Prop :=
  ∀ (x : Reg) (s : State),
    (HasRow (.ldVxDt x) 0xF0FF 0xF007 ∧ ∃ t, exec (.ldVxDt x) s = .next t ∧ t.getV x = s.dt ∧ Frame [] [x] [] s t) ∧
    (HasRow (.ldDtVx x) 0xF0FF 0xF015 ∧ ∃ t, exec (.ldDtVx x) s = .next t ∧ t.dt = s.getV x ∧
      Frame [.dt] [] [] s t) ∧
    (HasRow (.ldStVx x) 0xF0FF 0xF018 ∧ ∃ t, exec (.ldStVx x) s = .next t ∧ t.st = s.getV x ∧
      Frame [.st] [] [] s t ∧
      (s.run = .running → ∀ k, sound (tickEvent^[k] t) = true ↔ k < (s.getV x).toNat))

/-- R160: a tick takes 1 from each timer that is not 0 while RUNNING, and changes nothing otherwise.
Decided in D28. -/
def Obligations.TickCountsTimersDown : Prop :=
  ∀ (s : State), ∃ t, applyEvent .tick s = .next t ∧ Frame [.dt, .st] [] [] s t ∧
    (s.run = .running → t.dt.toNat = s.dt.toNat - 1 ∧ t.st.toNat = s.st.toNat - 1) ∧
    (s.run ≠ .running → t = s)

/-- R161, R162: pause toggles RUNNING and PAUSED and does nothing in STOPPED; stop goes to STOPPED from any state; neither
changes anything else.
Decided in D40. -/
def Obligations.PauseAndStop : Prop :=
  ∀ (s : State),
    (∃ t, applyEvent .pauseToggle s = .next t ∧ Frame [.run] [] [] s t ∧
      (s.run = .running → t.run = .paused) ∧ (s.run = .paused → t.run = .running) ∧
      (s.run = .stopped → t.run = .stopped)) ∧
    (∃ t, applyEvent .stop s = .next t ∧ Frame [.run] [] [] s t ∧ t.run = .stopped)

/-- From STOPPED no sequence of events without a reset changes any state: only the inputs and the `REPORT` output can
differ afterwards (R163, R187). -/
def Obligations.StoppedIsAbsorbing : Prop :=
  ∀ (es : List Event) (s : State), s.run = .stopped → (∀ inp, Event.reset inp ∉ es) →
    ∃ t, applyEvents es s = .next t ∧ t.run = .stopped ∧
      t = { s with report := t.report, keys := t.keys, quirks := t.quirks, rngIn := t.rngIn }

/-! ## Reset (spec/70_reset_and_hazards.md) -/

/-- R34: the state after the reset event with a ROM of legal length, whatever the state before, memory region by
region, the large font's where `FONT_LARGE` is given.
Decided in D7 to D10, D33, D34, D39. -/
def Obligations.ResetEstablishesState : Prop :=
  ∀ (inp : ResetInputs) (s : State), inp.rom.length ≤ 3584 →
    ∃ t, applyEvent (.reset inp) s = .next t ∧ (∀ r, t.getV r = 0) ∧ t.i = 0 ∧ t.pc = 0x0200 ∧ t.dt = 0 ∧ t.st = 0 ∧
      t.sp = 0 ∧ (∀ x y, fbPixel t.fb x y = false) ∧
      t.mode = (if inp.initialHires = true then .hires else .lores) ∧ t.run = .running ∧ t.report = .none ∧
      (∀ k, k < 80 → t.mem.read (0x050 + k) = inp.smallFont.val.getD k 0) ∧
      (∀ f, inp.largeFont = some f → ∀ k, k < 352 → t.mem.read (0x0A0 + k) = f.val.getD k 0) ∧
      (∀ k, k < 3584 → t.mem.read (0x200 + k) = inp.rom.getD k 0) ∧
      (∀ a, a < 0x050 → t.mem.read a = 0)

/-- A ROM of more than 3584 bytes leaves no machine; one of exactly 3584 is legal and fills `0x200` to `0xFFF` (R182).
That no next state is left where a machine stood before is the model's choice: R182 "does not say whether the old state
survives" (log 12, DESIGN CHOICE).
Decided in D33. -/
def Obligations.TooLargeRomLeavesNoMachine : Prop :=
  ∀ (inp : ResetInputs) (s : State),
    (3584 < inp.rom.length → applyEvent (.reset inp) s = .fault .romTooLarge) ∧
    (inp.rom.length = 3584 → ∃ t, applyEvent (.reset inp) s = .next t ∧
      ∀ a, 0x200 ≤ a → a ≤ 0xFFF → some (t.mem.read a) = inp.rom[a - 0x200]?)

/-- The reset state of the model is what the reset event leaves for the inputs its log entries name: an empty ROM, lores,
the table of R181 and no large font given (the model's choices, log 3 to log 8). Its bytes at `0x050` are the glyphs of
R181, and those at `0x0A0` to `0x1FF` the free values of log 6, whatever these are. -/
def Obligations.ResetStateIsAResetEvent : Prop :=
  applyEvent (.reset { rom := [], initialHires := false, largeFont := none }) State.reset = .next State.reset ∧
  (∀ d k, d < 16 → k < 5 →
    State.reset.mem.read (0x050 + 5 * d + k) = ((fontSmallLow ++ fontSmallHigh).getD d []).getD k 0) ∧
  ∀ k, k < 352 → State.reset.mem.read (0x0A0 + k) = Config.freeFontLarge k

/-- The strict reading of reports is the faithful step with the reporting steps made faults: it runs on exactly when the
step raised no report (93_implementation_defined.md Part 3; log 1, log 2). -/
def Obligations.StrictStepStopsAtReports : Prop :=
  ∀ (s t : State), step s = .next t →
    (t.report = .none → strictStep s = .next t) ∧
    (t.report ≠ .none → strictStep s = .fault (.reported t.report)) ∧
    (runEnd s = some .fetchFault → ∃ a, strictStep s = .fault (.reported (.memoryFault a)))
end

