-- ==== Sys2Proof/Laws/Decode.lean ====
section
/-! SUPPORT. The fields of a word given by its arithmetic, and how words and bytes go together (spec/30_encoding.md R60,
R61). -/

namespace Sys2Proof

/-- A word is its two bytes (R43, R60). -/
theorem wordOfBytes_high_low (w : Word) : wordOfBytes (highByte w) (lowByte w) = w := by
  apply BitVec.eq_of_toNat_eq
  have := w.isLt
  simp only [wordOfBytes, highByte, lowByte, BitVec.toNat_ofNat]
  omega

/-- Two bytes are the bytes of their word (R43, R60). -/
theorem highByte_wordOfBytes (hi lo : Byte) : highByte (wordOfBytes hi lo) = hi := by
  apply BitVec.eq_of_toNat_eq
  have := hi.isLt
  have := lo.isLt
  simp only [wordOfBytes, highByte, BitVec.toNat_ofNat]
  omega

/-- See `highByte_wordOfBytes`. -/
theorem lowByte_wordOfBytes (hi lo : Byte) : lowByte (wordOfBytes hi lo) = lo := by
  apply BitVec.eq_of_toNat_eq
  have := hi.isLt
  have := lo.isLt
  simp only [wordOfBytes, lowByte, BitVec.toNat_ofNat]
  omega

/-- Decoding bytes is decoding their word (R60). -/
theorem decode_cons_cons (hi lo : Byte) (rest : List Byte) :
    decode (hi :: lo :: rest) = (decodeWord (wordOfBytes hi lo)).map (fun i => (i, rest)) := by
  simp only [decode]
  cases decodeWord (wordOfBytes hi lo) <;> rfl

/-- The arithmetic of a word of format `NNN` (R63). -/
theorem toNat_encNNN {op : Nat} (h : op < 16) (nnn : Addr12) : (encNNN op nnn).toNat = op * 4096 + nnn.toNat := by
  have := nnn.isLt
  rw [encNNN, BitVec.toNat_ofNat, Nat.mod_eq_of_lt (by omega)]

/-- The arithmetic of a word of format `XNN` (R63). -/
theorem toNat_encXNN {op : Nat} (h : op < 16) (x : Reg) (nn : Byte) :
    (encXNN op x nn).toNat = op * 4096 + x.val * 256 + nn.toNat := by
  have := nn.isLt
  have := x.isLt
  rw [encXNN, BitVec.toNat_ofNat, Nat.mod_eq_of_lt (by omega)]

/-- The arithmetic of a word of formats `XYF` and `XYN` (R63). -/
theorem toNat_encXYN {op n : Nat} (h : op < 16) (hn : n < 16) (x y : Reg) :
    (encXYN op x y n).toNat = op * 4096 + x.val * 256 + y.val * 16 + n := by
  have := x.isLt
  have := y.isLt
  rw [encXYN, BitVec.toNat_ofNat, Nat.mod_eq_of_lt (by omega)]

/-- The arithmetic of a word of format `XFF` (R63). -/
theorem toNat_encXFF {op low : Nat} (h : op < 16) (hl : low < 256) (x : Reg) :
    (encXFF op x low).toNat = op * 4096 + x.val * 256 + low := by
  have := x.isLt
  rw [encXFF, BitVec.toNat_ofNat, Nat.mod_eq_of_lt (by omega)]

/-- Masks of the opcode map test nibbles: the top one (R64). -/
theorem and_F000 (w : Word) : (w &&& 0xF000#16).toNat = w.toNat / 4096 * 4096 := by
  have h : w &&& 0xF000#16 = (w >>> 12) <<< 12 := by
    apply BitVec.eq_of_getLsbD_eq
    intro i hi
    have : i < 16 := hi
    interval_cases i <;> simp
  rw [h]
  have := w.isLt
  simp [Nat.shiftRight_eq_div_pow, Nat.shiftLeft_eq]
  omega

/-- The top nibble and the low byte (R64). -/
theorem and_F0FF (w : Word) : (w &&& 0xF0FF#16).toNat = w.toNat / 4096 * 4096 + w.toNat % 256 := by
  have h : w &&& 0xF0FF#16 = (w &&& 0xF000#16) + (w &&& 0xFF#16) := by
    rw [BitVec.add_eq_or_of_and_eq_zero _ _ (by
      apply BitVec.eq_of_getLsbD_eq
      intro i hi
      have : i < 16 := hi
      interval_cases i <;> simp)]
    apply BitVec.eq_of_getLsbD_eq
    intro i hi
    have : i < 16 := hi
    interval_cases i <;> simp
  have h2 : (w &&& 0xFF#16).toNat = w.toNat % 256 := by
    simpa using Nat.and_two_pow_sub_one_eq_mod w.toNat 8
  have := w.isLt
  rw [h, BitVec.toNat_add, and_F000, h2]
  omega

/-- The top and the bottom nibble (R64). -/
theorem and_F00F (w : Word) : (w &&& 0xF00F#16).toNat = w.toNat / 4096 * 4096 + w.toNat % 16 := by
  have h : w &&& 0xF00F#16 = (w &&& 0xF000#16) + (w &&& 0xF#16) := by
    rw [BitVec.add_eq_or_of_and_eq_zero _ _ (by
      apply BitVec.eq_of_getLsbD_eq
      intro i hi
      have : i < 16 := hi
      interval_cases i <;> simp)]
    apply BitVec.eq_of_getLsbD_eq
    intro i hi
    have : i < 16 := hi
    interval_cases i <;> simp
  have h2 : (w &&& 0xF#16).toNat = w.toNat % 16 := by
    simpa using Nat.and_two_pow_sub_one_eq_mod w.toNat 4
  have := w.isLt
  rw [h, BitVec.toNat_add, and_F000, h2]
  omega

/-- Fitting a row whose mask is the top nibble (R64). -/
theorem fits_F000_iff (w v : Word) : (OpcodeRow.mk 0xF000 v).fits w = true ↔ w.toNat / 4096 * 4096 = v.toNat := by
  simp only [OpcodeRow.fits, beq_iff_eq, BitVec.toNat_eq]
  exact and_F000 w ▸ Iff.rfl

/-- Fitting a row whose mask is the top and the bottom nibble (R64). -/
theorem fits_F00F_iff (w v : Word) :
    (OpcodeRow.mk 0xF00F v).fits w = true ↔ w.toNat / 4096 * 4096 + w.toNat % 16 = v.toNat := by
  simp only [OpcodeRow.fits, beq_iff_eq, BitVec.toNat_eq]
  exact and_F00F w ▸ Iff.rfl

/-- Fitting a row whose mask is the top nibble and the low byte (R64). -/
theorem fits_F0FF_iff (w v : Word) :
    (OpcodeRow.mk 0xF0FF v).fits w = true ↔ w.toNat / 4096 * 4096 + w.toNat % 256 = v.toNat := by
  simp only [OpcodeRow.fits, beq_iff_eq, BitVec.toNat_eq]
  exact and_F0FF w ▸ Iff.rfl

/-- Fitting a row that is one exact word (R65). -/
theorem fits_FFFF_iff (w v : Word) : (OpcodeRow.mk 0xFFFF v).fits w = true ↔ w.toNat = v.toNat := by
  simp only [OpcodeRow.fits, beq_iff_eq, BitVec.toNat_eq]
  exact (congrArg BitVec.toNat (BitVec.and_allOnes (x := w))) ▸ Iff.rfl

end Sys2Proof
end

