-- ==== Sys2Proof/Laws/Memory.lean ====
section
/-! SUPPORT. What the memory operations do (spec/20_memory.md R45, R49): read after write, the canonical form kept by
every operation, and equal memories being equal data. -/

namespace Sys2Proof.Machine

/-! ## The reset contents, region by region (R41, R181) -/

/-- The program region resets to 0. -/
theorem resetByte_program {a : Nat} (h : 0x200 ≤ a) : resetByte a = some 0 := if_pos h

/-- The large font's region is unknown where `FONT_LARGE` is not given (log 6). -/
theorem resetByte_fontLarge {a : Nat} (h : 0x0A0 ≤ a) (h' : a < 0x200) : resetByte a = none :=
  (if_neg (Nat.not_le.2 h')).trans (if_pos h)

/-- The small font's region resets to the glyphs. -/
theorem resetByte_fontSmall {a : Nat} (h : 0x050 ≤ a) (h' : a < 0x0A0) :
    resetByte a = some (fontSmall.getD (a - 0x050) 0) :=
  (if_neg (Nat.not_le.2 (Nat.lt_of_lt_of_le h' (by decide)))).trans ((if_neg (Nat.not_le.2 h')).trans (if_pos h))

/-- The bytes below the fonts reset to 0. -/
theorem resetByte_low {a : Nat} (h : a < 0x050) : resetByte a = some 0 :=
  (if_neg (Nat.not_le.2 (Nat.lt_of_lt_of_le h (by decide)))).trans
    ((if_neg (Nat.not_le.2 (Nat.lt_of_lt_of_le h (by decide)))).trans (if_neg (Nat.not_le.2 h)))

/-- An unlisted address with a known reset byte reads as it. -/
theorem unlistedByte_of_known {a : Nat} {b : Byte} (h : resetByte a = some b) : unlistedByte a = b := by
  rw [unlistedByte, h, Option.getD_some]

/-- An unlisted address of the large font's region reads as its free value. -/
theorem unlistedByte_fontLarge {a : Nat} (h : 0x0A0 ≤ a) (h' : a < 0x200) :
    unlistedByte a = Config.freeFontLarge (a - 0x0A0) := by
  rw [unlistedByte, resetByte_fontLarge h h']; rfl

/-! ## Cell lists -/

theorem findCell_insertCell (a c : Nat) (b : Byte) (l : List Host.Cell) :
    findCell c (insertCell a b l) = if c = a then some b else findCell c l := by
  induction l with
  | nil => by_cases h : a = c <;> simp [insertCell, findCell, h, eq_comm]
  | cons hd rest ih =>
    obtain ⟨k, d⟩ := hd
    simp only [insertCell]
    split
    · by_cases h : a = c <;> simp [findCell, h, eq_comm]
    · split
      · subst a
        by_cases h : k = c
        · simp [findCell, h]
        · simp [findCell, h, Ne.symm h]
      · rename_i hne
        by_cases h : k = c
        · subst k
          simp [findCell, Ne.symm hne]
        · simp [findCell, h, ih]

theorem findCell_eraseCell (a c : Nat) (l : List Host.Cell) :
    findCell c (eraseCell a l) = if c = a then none else findCell c l := by
  induction l with
  | nil => simp [eraseCell, findCell]
  | cons hd rest ih =>
    obtain ⟨k, d⟩ := hd
    simp only [eraseCell] at ih ⊢
    by_cases hk : k = a
    · subst k
      rw [List.filter_cons_of_neg (by simp), ih]
      by_cases h : c = a
      · simp [h]
      · simp [findCell, h, Ne.symm h]
    · rw [List.filter_cons_of_pos (by simpa using hk), findCell, ih]
      by_cases h : k = c
      · subst k; simp [findCell, hk]
      · simp [findCell, h]

theorem cellsOk_mono {lo lo' : Nat} (h : lo' ≤ lo) {l : List Host.Cell} (hl : cellsOk lo l = true) :
    cellsOk lo' l = true := by
  cases l with
  | nil => rfl
  | cons hd rest =>
    simp only [cellsOk, Bool.and_eq_true, decide_eq_true_eq] at hl ⊢
    exact ⟨⟨⟨by omega, hl.1.1.2⟩, hl.1.2⟩, hl.2⟩

theorem cellsOk_insertCell {a : Nat} {b : Byte} (ha : a ≤ Config.maxAddr) (hb : resetByte a ≠ some b) :
    ∀ {lo : Nat} {l : List Host.Cell}, lo ≤ a → cellsOk lo l = true → cellsOk lo (insertCell a b l) = true
  | lo, [], hlo, _ => by simp [insertCell, cellsOk, hlo, ha, hb]
  | lo, (c, d) :: rest, hlo, hl => by
    simp only [cellsOk, Bool.and_eq_true, decide_eq_true_eq] at hl
    simp only [insertCell]
    split
    · simp only [cellsOk, Bool.and_eq_true, decide_eq_true_eq]
      exact ⟨⟨⟨hlo, ha⟩, by simpa using hb⟩, ⟨⟨by omega, hl.1.1.2⟩, hl.1.2⟩, hl.2⟩
    · split
      · subst a
        simp only [cellsOk, Bool.and_eq_true, decide_eq_true_eq]
        exact ⟨⟨⟨hlo, ha⟩, by simpa using hb⟩, hl.2⟩
      · simp only [cellsOk, Bool.and_eq_true, decide_eq_true_eq]
        exact ⟨hl.1, cellsOk_insertCell ha hb (by omega) hl.2⟩

theorem cellsOk_eraseCell {a : Nat} : ∀ {lo : Nat} {l : List Host.Cell},
    cellsOk lo l = true → cellsOk lo (eraseCell a l) = true
  | _, [], _ => rfl
  | lo, (c, d) :: rest, hl => by
    simp only [cellsOk, Bool.and_eq_true, decide_eq_true_eq] at hl
    have ih := cellsOk_eraseCell (a := a) hl.2
    simp only [eraseCell] at ih ⊢
    by_cases hc : c = a
    · rw [List.filter_cons_of_neg (by simp [hc])]
      exact cellsOk_mono (by omega) ih
    · rw [List.filter_cons_of_pos (by simpa using hc)]
      simp only [cellsOk, Bool.and_eq_true, decide_eq_true_eq]
      exact ⟨hl.1, ih⟩

/-- An address below the least listed one is not listed. -/
theorem findCell_eq_none_of_lt {lo c : Nat} (h : c < lo) : ∀ {l : List Host.Cell}, cellsOk lo l = true →
    findCell c l = none
  | [], _ => rfl
  | (k, d) :: rest, hl => by
    simp only [cellsOk, Bool.and_eq_true, decide_eq_true_eq] at hl
    have hk : k ≠ c := by omega
    simp only [findCell, hk, if_false]
    exact findCell_eq_none_of_lt (lo := k + 1) (by omega) hl.2

/-- A listed byte of a canonical list is never the reset byte of its address. -/
theorem findCell_ne_reset {c : Nat} {b : Byte} : ∀ {lo : Nat} {l : List Host.Cell}, cellsOk lo l = true →
    findCell c l = some b → resetByte c ≠ some b
  | _, [], _, h => by simp [findCell] at h
  | _, (k, d) :: rest, hl, h => by
    simp only [cellsOk, Bool.and_eq_true, decide_eq_true_eq] at hl
    simp only [findCell] at h
    split at h
    · cases h
      subst k
      simpa using hl.1.2
    · exact findCell_ne_reset hl.2 h

/-- Canonical lists that list the same bytes are the same list. -/
theorem cells_eq_of_findCell : ∀ {lo : Nat} {l l' : List Host.Cell}, cellsOk lo l = true → cellsOk lo l' = true →
    (∀ c, findCell c l = findCell c l') → l = l'
  | _, [], [], _, _, _ => rfl
  | _, [], (k, d) :: _, _, _, h => by have := h k; simp [findCell] at this
  | _, (k, d) :: _, [], _, _, h => by have := h k; simp [findCell] at this
  | lo, (k, d) :: rest, (k', d') :: rest', hl, hl', h => by
    simp only [cellsOk, Bool.and_eq_true, decide_eq_true_eq] at hl hl'
    have hk : k = k' := by
      by_contra hne
      rcases Nat.lt_or_gt_of_ne hne with hlt | hgt
      · have h1 := h k
        rw [findCell, if_pos rfl, findCell, if_neg (by omega),
          findCell_eq_none_of_lt (lo := k' + 1) (by omega) hl'.2] at h1
        cases h1
      · have h1 := h k'
        rw [findCell, if_neg (by omega), findCell_eq_none_of_lt (lo := k + 1) (by omega) hl.2, findCell,
          if_pos rfl] at h1
        cases h1
    subst k'
    have hd : d = d' := by have := h k; simpa [findCell] using this
    subst d'
    have hr : rest = rest' := by
      refine cells_eq_of_findCell hl.2 hl'.2 fun c => ?_
      by_cases hc : k = c
      · subst c
        rw [findCell_eq_none_of_lt (lo := k + 1) (by omega) hl.2,
          findCell_eq_none_of_lt (lo := k + 1) (by omega) hl'.2]
      · have := h c
        simpa [findCell, hc] using this
    rw [hr]

/-! ## Memory -/

/-- Read after write: the byte written at its own address, every other address as before (R49). -/
theorem read_write (m : Memory) {a : Nat} (b : Byte) (ha : a ≤ Config.maxAddr) (c : Nat) :
    (m.write a b).read c = if c = a then b else m.read c := by
  have hn : ¬ Config.maxAddr < a := by omega
  unfold Memory.write Memory.read
  rw [if_neg hn]
  split
  · rename_i hb
    simp only [findCell_eraseCell]
    split
    · rename_i hc; subst hc; simp [unlistedByte, hb]
    · rfl
  · simp only [findCell_insertCell]
    split <;> rfl

/-- A write above `0xFFF` changes nothing. -/
theorem write_of_gt (m : Memory) {a : Nat} (b : Byte) (ha : Config.maxAddr < a) : m.write a b = m := by
  simp [Memory.write, ha]

/-- A write leaves every other address alone, wherever it goes. -/
theorem read_write_of_ne (m : Memory) (a : Nat) (b : Byte) {c : Nat} (hc : c ≠ a) :
    (m.write a b).read c = m.read c := by
  by_cases ha : Config.maxAddr < a
  · rw [write_of_gt m b ha]
  · rw [read_write m b (by omega), if_neg hc]

/-- A write keeps the canonical form. -/
theorem wf_write {m : Memory} (h : m.wf = true) (a : Nat) (b : Byte) : (m.write a b).wf = true := by
  unfold Memory.write
  split
  · exact h
  · split
    · exact cellsOk_eraseCell h
    · rename_i ha hb
      exact cellsOk_insertCell (by omega) hb (Nat.zero_le a) h

/-- Writing a sequence of bytes keeps the canonical form. -/
theorem wf_writeBytes (bs : List Byte) : ∀ {m : Memory} (_ : m.wf = true) (a : Nat), (m.writeBytes a bs).wf = true := by
  induction bs with
  | nil => intro m h a; exact h
  | cons b bs ih => intro m h a; exact ih (wf_write h a b) (a + 1)

/-- Read after a block write that stays in memory (R49). -/
theorem read_writeBytes (bs : List Byte) : ∀ (m : Memory) (a : Nat), a + bs.length ≤ Config.maxAddr + 1 → ∀ c,
    (m.writeBytes a bs).read c = if a ≤ c ∧ c < a + bs.length then bs.getD (c - a) 0 else m.read c := by
  induction bs with
  | nil =>
    intro m a _ c
    have : ¬ (a ≤ c ∧ c < a + ([] : List Byte).length) := by simp
    rw [if_neg this]; rfl
  | cons b bs ih =>
    intro m a ha c
    simp only [List.length_cons] at ha ⊢
    rw [Memory.writeBytes, ih (m.write a b) (a + 1) (by omega) c, read_write m b (by omega) c]
    by_cases hc : c = a
    · subst hc
      rw [if_neg (by omega), if_pos rfl, if_pos (by omega), Nat.sub_self]; rfl
    · by_cases h : a + 1 ≤ c ∧ c < a + 1 + bs.length
      · rw [if_pos h, if_pos (by omega), show c - a = (c - (a + 1)) + 1 by omega]; rfl
      · rw [if_neg h, if_neg hc, if_neg (by omega)]

/-- A block write leaves every address outside the block alone, wherever it goes. -/
theorem read_writeBytes_of_not_mem (bs : List Byte) : ∀ (m : Memory) (a : Nat) {c : Nat}, (c < a ∨ a + bs.length ≤ c) →
    (m.writeBytes a bs).read c = m.read c := by
  induction bs with
  | nil => intro m a c _; rfl
  | cons b bs ih =>
    intro m a c hc
    simp only [List.length_cons] at hc
    rw [Memory.writeBytes, ih (m.write a b) (a + 1) (by omega), read_write_of_ne m a b (by omega)]

/-- What is known of the byte at an address: the listed byte, else the reset byte, none where that is unknown. -/
def Memory.known (m : Memory) (a : Nat) : Option Byte := (findCell a m.cells).or (resetByte a)

/-- A read gives the known byte, or the free value of the address (log 6). -/
theorem read_eq_known (m : Memory) (a : Nat) :
    m.read a = (m.known a).getD (Config.freeFontLarge (a - Config.fontLargeBase)) := by
  unfold Memory.read Memory.known unlistedByte
  cases findCell a m.cells <;> rfl

/-- Outside `0x0A0` to `0x1FF` the byte is always known. -/
theorem known_eq_read (m : Memory) {a : Nat} (ha : a < Config.fontLargeBase ∨ Config.progBase ≤ a) :
    m.known a = some (m.read a) := by
  have hr : ∃ b, resetByte a = some b := by
    rcases ha with ha | ha
    · by_cases h : 0x050 ≤ a
      · exact ⟨_, resetByte_fontSmall h ha⟩
      · exact ⟨_, resetByte_low (by omega)⟩
    · exact ⟨_, resetByte_program ha⟩
  obtain ⟨b, hb⟩ := hr
  unfold Memory.read Memory.known unlistedByte
  rw [hb]
  cases findCell a m.cells <;> rfl

/-- What is known after a write: the byte written at its own address, every other address as before. -/
theorem known_write (m : Memory) {a : Nat} (b : Byte) (ha : a ≤ Config.maxAddr) (c : Nat) :
    (m.write a b).known c = if c = a then some b else m.known c := by
  have hn : ¬ Config.maxAddr < a := by omega
  unfold Memory.write Memory.known
  rw [if_neg hn]
  split
  · rename_i hb
    simp only [findCell_eraseCell]
    split
    · rename_i hc; subst hc; simp [hb]
    · rfl
  · simp only [findCell_insertCell]
    split <;> simp

/-- Equal memories are equal data: canonical memories of which the same is known at every address are the same list. -/
theorem memory_eq_of_known {m m' : Memory} (h : m.wf = true) (h' : m'.wf = true) (hk : ∀ c, m.known c = m'.known c) :
    m = m' := by
  obtain ⟨l⟩ := m
  obtain ⟨l'⟩ := m'
  have : l = l' := by
    refine cells_eq_of_findCell (lo := 0) h h' fun c => ?_
    have hc := hk c
    simp only [Memory.known] at hc
    cases h1 : findCell c l with
    | none =>
      cases h2 : findCell c l' with
      | none => rfl
      | some d =>
        rw [h1, h2] at hc
        exact absurd hc (findCell_ne_reset h' h2)
    | some b =>
      cases h2 : findCell c l' with
      | none =>
        rw [h1, h2] at hc
        exact absurd hc.symm (findCell_ne_reset h h1)
      | some d =>
        rw [h1, h2] at hc
        simpa using hc
  rw [this]

/-- The memory of the reset state is in canonical form. -/
theorem wf_reset : State.reset.mem.wf = true := rfl

end Sys2Proof.Machine
end

