-- ==== Sys2Proof/Laws/State.lean ====
section
/-! SUPPORT. One lemma per field and update of the state, each true by `rfl`, and what reading a register after a write
gives, so that no later proof unfolds a record update. -/

namespace Sys2Proof.Machine

section
variable (s : State)

/-! ## `State.setV` -/

@[simp] theorem setV_v (r : Reg) (b : Byte) : (s.setV r b).v = s.v.set r b := rfl
@[simp] theorem setV_i (r : Reg) (b : Byte) : (s.setV r b).i = s.i := rfl
@[simp] theorem setV_pc (r : Reg) (b : Byte) : (s.setV r b).pc = s.pc := rfl
@[simp] theorem setV_dt (r : Reg) (b : Byte) : (s.setV r b).dt = s.dt := rfl
@[simp] theorem setV_st (r : Reg) (b : Byte) : (s.setV r b).st = s.st := rfl
@[simp] theorem setV_stack (r : Reg) (b : Byte) : (s.setV r b).stack = s.stack := rfl
@[simp] theorem setV_mem (r : Reg) (b : Byte) : (s.setV r b).mem = s.mem := rfl
@[simp] theorem setV_fb (r : Reg) (b : Byte) : (s.setV r b).fb = s.fb := rfl
@[simp] theorem setV_mode (r : Reg) (b : Byte) : (s.setV r b).mode = s.mode := rfl
@[simp] theorem setV_run (r : Reg) (b : Byte) : (s.setV r b).run = s.run := rfl
@[simp] theorem setV_report (r : Reg) (b : Byte) : (s.setV r b).report = s.report := rfl
@[simp] theorem setV_keys (r : Reg) (b : Byte) : (s.setV r b).keys = s.keys := rfl
@[simp] theorem setV_quirks (r : Reg) (b : Byte) : (s.setV r b).quirks = s.quirks := rfl
@[simp] theorem setV_rngIn (r : Reg) (b : Byte) : (s.setV r b).rngIn = s.rngIn := rfl
@[simp] theorem setV_rngDraws (r : Reg) (b : Byte) : (s.setV r b).rngDraws = s.rngDraws := rfl

/-! ## `State.setI` -/

@[simp] theorem setI_v (w : Word) : (s.setI w).v = s.v := rfl
@[simp] theorem setI_i (w : Word) : (s.setI w).i = w := rfl
@[simp] theorem setI_pc (w : Word) : (s.setI w).pc = s.pc := rfl
@[simp] theorem setI_dt (w : Word) : (s.setI w).dt = s.dt := rfl
@[simp] theorem setI_st (w : Word) : (s.setI w).st = s.st := rfl
@[simp] theorem setI_stack (w : Word) : (s.setI w).stack = s.stack := rfl
@[simp] theorem setI_mem (w : Word) : (s.setI w).mem = s.mem := rfl
@[simp] theorem setI_fb (w : Word) : (s.setI w).fb = s.fb := rfl
@[simp] theorem setI_mode (w : Word) : (s.setI w).mode = s.mode := rfl
@[simp] theorem setI_run (w : Word) : (s.setI w).run = s.run := rfl
@[simp] theorem setI_report (w : Word) : (s.setI w).report = s.report := rfl
@[simp] theorem setI_keys (w : Word) : (s.setI w).keys = s.keys := rfl
@[simp] theorem setI_quirks (w : Word) : (s.setI w).quirks = s.quirks := rfl
@[simp] theorem setI_rngIn (w : Word) : (s.setI w).rngIn = s.rngIn := rfl
@[simp] theorem setI_rngDraws (w : Word) : (s.setI w).rngDraws = s.rngDraws := rfl

/-! ## `State.setPc` -/

@[simp] theorem setPc_v (w : Word) : (s.setPc w).v = s.v := rfl
@[simp] theorem setPc_i (w : Word) : (s.setPc w).i = s.i := rfl
@[simp] theorem setPc_pc (w : Word) : (s.setPc w).pc = w := rfl
@[simp] theorem setPc_dt (w : Word) : (s.setPc w).dt = s.dt := rfl
@[simp] theorem setPc_st (w : Word) : (s.setPc w).st = s.st := rfl
@[simp] theorem setPc_stack (w : Word) : (s.setPc w).stack = s.stack := rfl
@[simp] theorem setPc_mem (w : Word) : (s.setPc w).mem = s.mem := rfl
@[simp] theorem setPc_fb (w : Word) : (s.setPc w).fb = s.fb := rfl
@[simp] theorem setPc_mode (w : Word) : (s.setPc w).mode = s.mode := rfl
@[simp] theorem setPc_run (w : Word) : (s.setPc w).run = s.run := rfl
@[simp] theorem setPc_report (w : Word) : (s.setPc w).report = s.report := rfl
@[simp] theorem setPc_keys (w : Word) : (s.setPc w).keys = s.keys := rfl
@[simp] theorem setPc_quirks (w : Word) : (s.setPc w).quirks = s.quirks := rfl
@[simp] theorem setPc_rngIn (w : Word) : (s.setPc w).rngIn = s.rngIn := rfl
@[simp] theorem setPc_rngDraws (w : Word) : (s.setPc w).rngDraws = s.rngDraws := rfl

/-! ## `State.setMem` -/

@[simp] theorem setMem_v (m : Memory) : (s.setMem m).v = s.v := rfl
@[simp] theorem setMem_i (m : Memory) : (s.setMem m).i = s.i := rfl
@[simp] theorem setMem_pc (m : Memory) : (s.setMem m).pc = s.pc := rfl
@[simp] theorem setMem_dt (m : Memory) : (s.setMem m).dt = s.dt := rfl
@[simp] theorem setMem_st (m : Memory) : (s.setMem m).st = s.st := rfl
@[simp] theorem setMem_stack (m : Memory) : (s.setMem m).stack = s.stack := rfl
@[simp] theorem setMem_mem (m : Memory) : (s.setMem m).mem = m := rfl
@[simp] theorem setMem_fb (m : Memory) : (s.setMem m).fb = s.fb := rfl
@[simp] theorem setMem_mode (m : Memory) : (s.setMem m).mode = s.mode := rfl
@[simp] theorem setMem_run (m : Memory) : (s.setMem m).run = s.run := rfl
@[simp] theorem setMem_report (m : Memory) : (s.setMem m).report = s.report := rfl
@[simp] theorem setMem_keys (m : Memory) : (s.setMem m).keys = s.keys := rfl
@[simp] theorem setMem_quirks (m : Memory) : (s.setMem m).quirks = s.quirks := rfl
@[simp] theorem setMem_rngIn (m : Memory) : (s.setMem m).rngIn = s.rngIn := rfl
@[simp] theorem setMem_rngDraws (m : Memory) : (s.setMem m).rngDraws = s.rngDraws := rfl

/-! ## `State.setFb` -/

@[simp] theorem setFb_v (fb : FrameBuffer) : (s.setFb fb).v = s.v := rfl
@[simp] theorem setFb_i (fb : FrameBuffer) : (s.setFb fb).i = s.i := rfl
@[simp] theorem setFb_pc (fb : FrameBuffer) : (s.setFb fb).pc = s.pc := rfl
@[simp] theorem setFb_dt (fb : FrameBuffer) : (s.setFb fb).dt = s.dt := rfl
@[simp] theorem setFb_st (fb : FrameBuffer) : (s.setFb fb).st = s.st := rfl
@[simp] theorem setFb_stack (fb : FrameBuffer) : (s.setFb fb).stack = s.stack := rfl
@[simp] theorem setFb_mem (fb : FrameBuffer) : (s.setFb fb).mem = s.mem := rfl
@[simp] theorem setFb_fb (fb : FrameBuffer) : (s.setFb fb).fb = fb := rfl
@[simp] theorem setFb_mode (fb : FrameBuffer) : (s.setFb fb).mode = s.mode := rfl
@[simp] theorem setFb_run (fb : FrameBuffer) : (s.setFb fb).run = s.run := rfl
@[simp] theorem setFb_report (fb : FrameBuffer) : (s.setFb fb).report = s.report := rfl
@[simp] theorem setFb_keys (fb : FrameBuffer) : (s.setFb fb).keys = s.keys := rfl
@[simp] theorem setFb_quirks (fb : FrameBuffer) : (s.setFb fb).quirks = s.quirks := rfl
@[simp] theorem setFb_rngIn (fb : FrameBuffer) : (s.setFb fb).rngIn = s.rngIn := rfl
@[simp] theorem setFb_rngDraws (fb : FrameBuffer) : (s.setFb fb).rngDraws = s.rngDraws := rfl

/-! ## `fetchAdvance` -/

@[simp] theorem fetchAdvance_v : (fetchAdvance s).v = s.v := rfl
@[simp] theorem fetchAdvance_i : (fetchAdvance s).i = s.i := rfl
@[simp] theorem fetchAdvance_pc : (fetchAdvance s).pc = s.pc + 2 := rfl
@[simp] theorem fetchAdvance_dt : (fetchAdvance s).dt = s.dt := rfl
@[simp] theorem fetchAdvance_st : (fetchAdvance s).st = s.st := rfl
@[simp] theorem fetchAdvance_stack : (fetchAdvance s).stack = s.stack := rfl
@[simp] theorem fetchAdvance_mem : (fetchAdvance s).mem = s.mem := rfl
@[simp] theorem fetchAdvance_fb : (fetchAdvance s).fb = s.fb := rfl
@[simp] theorem fetchAdvance_mode : (fetchAdvance s).mode = s.mode := rfl
@[simp] theorem fetchAdvance_run : (fetchAdvance s).run = s.run := rfl
@[simp] theorem fetchAdvance_report : (fetchAdvance s).report = .none := rfl
@[simp] theorem fetchAdvance_keys : (fetchAdvance s).keys = s.keys := rfl
@[simp] theorem fetchAdvance_quirks : (fetchAdvance s).quirks = s.quirks := rfl
@[simp] theorem fetchAdvance_rngIn : (fetchAdvance s).rngIn = s.rngIn := rfl
@[simp] theorem fetchAdvance_rngDraws : (fetchAdvance s).rngDraws = s.rngDraws := rfl

/-! ## Registers -/

/-- Read after write of a register: the byte written at its own number, every other register as before (R10). -/
@[simp] theorem getV_setV (r : Reg) (b : Byte) (q : Reg) : (s.setV r b).getV q = if q = r then b else s.getV q := by
  simp only [State.getV, State.setV, Fin.getElem_fin, Vector.getElem_set, Fin.ext_iff, eq_comm]

@[simp] theorem getV_setI (w : Word) (q : Reg) : (s.setI w).getV q = s.getV q := rfl
@[simp] theorem getV_setPc (w : Word) (q : Reg) : (s.setPc w).getV q = s.getV q := rfl
@[simp] theorem getV_setMem (m : Memory) (q : Reg) : (s.setMem m).getV q = s.getV q := rfl
@[simp] theorem getV_setFb (fb : FrameBuffer) (q : Reg) : (s.setFb fb).getV q = s.getV q := rfl
@[simp] theorem getV_fetchAdvance (q : Reg) : (fetchAdvance s).getV q = s.getV q := rfl

/-- Two register files that read the same are the same. -/
theorem v_eq_of_getV {s t : State} (h : ∀ r, t.getV r = s.getV r) : t.v = s.v :=
  Vector.ext fun j hj => h ⟨j, hj⟩

end

end Sys2Proof.Machine
end

