-- ==== Sys2Proof/Laws/Ops.lean ====
section
/-! SUPPORT. For each shared operation, once, everything it can do: provers cite these instead of unfolding. -/

namespace Sys2Proof.Machine

section
variable (s t : State)

/-! ## Outcomes -/

/-- A next outcome determines its state. -/
theorem next_inj {s t : State} (h : (Host.Outcome.next s : Outcome) = .next t) : s = t := by injection h

/-- Raising a report answers the next state that differs in the report alone (R150). -/
@[simp] theorem raise_eq (r : Report) : raise r s = .next { s with report := r } := rfl

/-- The range check answers either the report `MemoryFault` with no effect, or the effect (R48). -/
theorem guardRange_cases (base len : Nat) (o : Outcome) :
    (rangeFaults base len = true ∧
      guardRange base len s o = .next { s with report := .memoryFault (faultAddr base) }) ∨
    (rangeFaults base len = false ∧ guardRange base len s o = o) := by
  cases h : rangeFaults base len <;> simp [guardRange, h]

/-- In range: the effect (R48). -/
theorem guardRange_of_ok {base len : Nat} (h : rangeFaults base len = false) (o : Outcome) :
    guardRange base len s o = o := by simp [guardRange, h]

/-- Out of range: the report and nothing else (R48). -/
theorem guardRange_of_fault {base len : Nat} (h : rangeFaults base len = true) (o : Outcome) :
    guardRange base len s o = .next { s with report := .memoryFault (faultAddr base) } := by simp [guardRange, h]

/-- The range check as an inequality of naturals (R46, R48). -/
theorem rangeFaults_eq_false {base len : Nat} : rangeFaults base len = false ↔ len = 0 ∨ base + len ≤ 0x1000 := by
  rw [rangeFaults, decide_eq_false_iff_not, Config.maxAddr]; omega

/-- See `rangeFaults_eq_false`. -/
theorem rangeFaults_eq_true {base len : Nat} : rangeFaults base len = true ↔ 0 < len ∧ 0xFFF < base + len - 1 := by
  rw [rangeFaults, decide_eq_true_eq, Config.maxAddr]

/-- A fetch faults exactly when `PC >= 0xFFF` (R47). -/
theorem fetchFaults_eq_true : fetchFaults s = true ↔ 0xFFF ≤ s.pc.toNat := by
  rw [fetchFaults, decide_eq_true_eq, Config.maxAddr]; omega

/-- See `fetchFaults_eq_true`. -/
theorem fetchFaults_eq_false : fetchFaults s = false ↔ s.pc.toNat ≤ 0xFFE := by
  rw [fetchFaults, decide_eq_false_iff_not, Config.maxAddr]; omega

/-! ## Skip, call, return -/

/-- A skip changes `PC` alone. -/
theorem skipIf_eq (c : Bool) : skipIf c s = { s with pc := if c then s.pc + 2 else s.pc } := by
  cases c <;> rfl

/-- A call either pushes `PC` and goes to its target, or raises `StackOverflow` on a full stack (R92). -/
theorem callTo_cases (depth : Option Nat) (target : Word) :
    (stackFull depth s.stack = true ∧ callTo depth target s = .next { s with report := .stackOverflow }) ∨
    (stackFull depth s.stack = false ∧
      callTo depth target s = .next { s with stack := s.pc :: s.stack, pc := target }) := by
  cases h : stackFull depth s.stack <;> simp [callTo, h]

/-- This hardware's stack is full at 16 entries (R18). -/
theorem stackFull_hardware (l : List Word) : stackFull Config.stackDepth l = true ↔ 16 ≤ l.length := by
  simp [stackFull, Config.stackDepth]

/-- The unbounded stack is never full: with `STACK_DEPTH = none` no call overflows (R92, R154). -/
theorem stackFull_unbounded (l : List Word) : stackFull none l = false := rfl

/-- A return either raises `StackUnderflow` on the empty stack or pops the latest entry (R90). -/
theorem returnFromCall_cases :
    (s.stack = [] ∧ returnFromCall s = .next { s with report := .stackUnderflow }) ∨
    (∃ a rest, s.stack = a :: rest ∧ returnFromCall s = .next { s with stack := rest, pc := a }) := by
  unfold returnFromCall
  split
  · exact .inl ⟨‹_›, rfl⟩
  · exact .inr ⟨_, _, ‹_›, rfl⟩

/-! ## Block transfers -/

/-- The register file after a block load (R125). -/
theorem blockLoaded_getElem (x : Reg) (base : Nat) (q : Reg) :
    (blockLoaded s x base)[q] = if q ≤ x then s.mem.read (base + q.val) else s.getV q := by
  simp [blockLoaded]

/-- The bytes of a block store are the registers in order (R124). -/
theorem blockRegs_length (x : Reg) : (blockRegs s x).length = x.val + 1 := by
  simp [blockRegs, blockLen]

/-- See `blockRegs_length`. -/
theorem blockRegs_getD (x q : Reg) (h : q ≤ x) : (blockRegs s x).getD q.val 0 = s.getV q := by
  have h' : q.val < x.val + 1 := Nat.lt_succ_of_le h
  simp [blockRegs, blockLen, State.getV, List.getD_eq_getElem?_getD, h']

/-! ## Flags -/

/-- The quirk clears `VF` and nothing else (R103). -/
theorem vfResetAfter_getV (q : Reg) :
    (vfResetAfter s).getV q = if s.quirks.vfReset = true ∧ q = vf then 0 else s.getV q := by
  cases h : s.quirks.vfReset <;> simp [vfResetAfter, h]

/-! ## Keys and random bytes -/

/-- The stored key is pressed and no lower one is (R143). -/
theorem lowestKey_eq_some {k : Fin 16} (h : lowestKey s = some k) :
    keyDown s k.val = true ∧ ∀ j : Fin 16, j < k → keyDown s j.val = false := by
  unfold lowestKey at h
  obtain ⟨hk, pre, post, heq, hpre⟩ := List.find?_eq_some_iff_append.mp h
  refine ⟨hk, fun j hj => ?_⟩
  have hmem : j ∈ pre ++ k :: post := heq ▸ List.mem_finRange j
  have hs : (pre ++ k :: post).Pairwise (· < ·) := heq ▸ List.pairwise_lt_finRange 16
  rcases List.mem_append.mp hmem with hp | hp
  · simpa using hpre j hp
  · have := (List.pairwise_append.mp hs).2.1
    rcases List.mem_cons.mp hp with rfl | hp
    · exact absurd hj (lt_irrefl _)
    · exact absurd (List.rel_of_pairwise_cons this hp) (by omega)

/-- No key is stored exactly when none is pressed (R143). -/
theorem lowestKey_eq_none : lowestKey s = none ↔ ∀ j : Fin 16, keyDown s j.val = false := by
  simp [lowestKey, List.find?_eq_none]

/-- No key is pressed exactly when `KEY = 0`. -/
theorem keys_eq_zero_iff : s.keys = 0 ↔ ∀ j : Fin 16, keyDown s j.val = false := by
  constructor
  · intro h j; simp [keyDown, h]
  · intro h
    apply BitVec.eq_of_getLsbD_eq
    intro j hj
    simpa [keyDown] using h ⟨j, hj⟩

/-- A sample of `RNG` changes the input alone (R111). -/
theorem rngConsume_eq : ∃ l n, rngConsume s = { s with rngIn := l, rngDraws := n } := by
  unfold rngConsume
  split
  · exact ⟨_, s.rngDraws, rfl⟩
  · exact ⟨s.rngIn, _, rfl⟩

/-! ## The framebuffer -/

/-- One flip changes exactly one pixel of the backing grid (R134). -/
theorem fbPixel_fbFlip (fb : FrameBuffer) {x y : Nat} (hx : x < 128) (hy : y < 64) (x' y' : Nat) :
    fbPixel (fbFlip fb x y) x' y' = if x' = x ∧ y' = y then !fbPixel fb x' y' else fbPixel fb x' y' := by
  unfold fbFlip fbPixel
  rw [dif_pos hy]
  by_cases h : y' < 64
  · simp only [h, dif_pos, Vector.getElem_set]
    by_cases hyy : y = y'
    · subst hyy
      by_cases hxx : x' = x
      · subst hxx; simp [hx]
      · by_cases hlt : x' < x
        · simp [hxx, hlt]
        · have hne : ¬ x' - x = 0 := by omega
          by_cases hb : x' < 128
          · simp [hxx, hlt, hb, hne]
          · simp [hxx, hb]
    · have : ¬ y' = y := fun e => hyy e.symm
      simp [hyy, this]
  · have : ¬ y' = y := by omega
    simp [h, this]

/-- Framebuffers with the same pixels are the same data. -/
theorem fb_eq_of_pixels {fb fb' : FrameBuffer}
    (h : ∀ x y, x < 128 → y < 64 → fbPixel fb x y = fbPixel fb' x y) : fb = fb' := by
  apply Vector.ext
  intro y hy
  apply BitVec.eq_of_getLsbD_eq
  intro x hx
  simpa [fbPixel, hy] using h x y hx hy

/-- The cleared framebuffer has no pixel on. -/
theorem fbPixel_blankFb (x y : Nat) : fbPixel blankFb x y = false := by
  unfold fbPixel blankFb
  split <;> simp

end

end Sys2Proof.Machine
end

