-- ==== Sys2Proof/Laws/Draw.lean ====
section
/-! SUPPORT. What drawing one sprite pixel does, and what a whole draw leaves alone (spec/44_draw.md). -/

namespace Sys2Proof.Machine

/-- The backing pixel `(X, Y)` belongs to the logical pixel `(tx, ty)` (R134). -/
def covers (mode : DisplayMode) (tx ty X Y : Nat) : Bool :=
  match mode with
  | .hires => decide (X = tx ∧ Y = ty)
  | .lores => decide (X / 2 = tx ∧ Y / 2 = ty)

/-- Flipping a logical pixel of the grid flips exactly the backing pixels it covers (R134). -/
theorem fbPixel_logicalFlip (mode : DisplayMode) (fb : FrameBuffer) {tx ty : Nat} (hx : tx < gridWidth mode)
    (hy : ty < gridHeight mode) (X Y : Nat) :
    fbPixel (logicalFlip mode fb tx ty) X Y = (fbPixel fb X Y ^^ covers mode tx ty X Y) := by
  cases mode with
  | hires =>
    simp only [gridWidth, gridHeight, Config.fbWidth, Config.fbHeight] at hx hy
    rw [logicalFlip, fbPixel_fbFlip fb hx hy]
    by_cases h : X = tx ∧ Y = ty <;> simp [covers, h]
  | lores =>
    simp only [gridWidth, gridHeight, Config.loresWidth, Config.loresHeight] at hx hy
    have e : ∀ a b : Nat, (X = a ∧ Y = b ∨ X = a + 1 ∧ Y = b ∨ X = a ∧ Y = b + 1 ∨ X = a + 1 ∧ Y = b + 1) ↔
        ((X = a ∨ X = a + 1) ∧ (Y = b ∨ Y = b + 1)) := by intro a b; tauto
    rw [logicalFlip, fbPixel_fbFlip _ (by omega) (by omega), fbPixel_fbFlip _ (by omega) (by omega),
      fbPixel_fbFlip _ (by omega) (by omega), fbPixel_fbFlip _ (by omega) (by omega)]
    by_cases h : X / 2 = tx ∧ Y / 2 = ty
    · have hc : (X = 2 * tx ∨ X = 2 * tx + 1) ∧ (Y = 2 * ty ∨ Y = 2 * ty + 1) := by omega
      obtain ⟨rfl | rfl, rfl | rfl⟩ := hc <;> simp [covers, h]
    · have h1 : ¬ (X = 2 * tx ∧ Y = 2 * ty) := by omega
      have h2 : ¬ (X = 2 * tx + 1 ∧ Y = 2 * ty) := by omega
      have h3 : ¬ (X = 2 * tx ∧ Y = 2 * ty + 1) := by omega
      have h4 : ¬ (X = 2 * tx + 1 ∧ Y = 2 * ty + 1) := by omega
      simp [covers, h, h1, h2, h3, h4]

/-- Every target lies on the logical grid of the sprite (R133). -/
theorem spriteTarget_in_grid {sp : Sprite} (hw : 0 < sp.width) (hh : 0 < sp.height) {r c tx ty : Nat}
    (h : spriteTarget sp r c = some (tx, ty)) : tx < sp.width ∧ ty < sp.height := by
  unfold spriteTarget at h
  split at h
  · split at h
    · cases h
    · injection h with h
      obtain ⟨rfl, rfl⟩ := Prod.mk.inj h
      omega
  · injection h with h
    obtain ⟨rfl, rfl⟩ := Prod.mk.inj h
    exact ⟨Nat.mod_lt _ hw, Nat.mod_lt _ hh⟩

/-- No two sprite pixels of a sprite narrower and shorter than the grid share a target (R133). -/
theorem spriteTarget_inj {sp : Sprite} {r c r' c' : Nat} {p : Nat × Nat} (hr : r < sp.height) (hr' : r' < sp.height)
    (hc : c < sp.width) (hc' : c' < sp.width) (h : spriteTarget sp r c = some p) (h' : spriteTarget sp r' c' = some p) :
    r = r' ∧ c = c' := by
  unfold spriteTarget at h h'
  split at h
  · rw [if_pos ‹_›] at h'
    split at h
    · cases h
    · split at h'
      · cases h'
      · have := h.trans h'.symm
        injection this with this
        have := Prod.mk.inj this
        omega
  · rw [if_neg ‹_›] at h'
    have := h.trans h'.symm
    injection this with this
    have := Prod.mk.inj this
    have e1 := Nat.ModEq.add_left_cancel' sp.vx (show sp.vx + c ≡ sp.vx + c' [MOD sp.width] from this.1)
    have e2 := Nat.ModEq.add_left_cancel' sp.vy (show sp.vy + r ≡ sp.vy + r' [MOD sp.height] from this.2)
    rw [Nat.ModEq, Nat.mod_eq_of_lt hc, Nat.mod_eq_of_lt hc'] at e1
    rw [Nat.ModEq, Nat.mod_eq_of_lt hr, Nat.mod_eq_of_lt hr'] at e2
    exact ⟨e2, e1⟩

/-- Drawing one sprite pixel: nothing for a 0 bit or a skipped one, else the flip of its target and the collision of
that target (R134, R136). -/
theorem drawPixel_cases (sp : Sprite) (m : Memory) (r c : Nat) (acc : FrameBuffer × Bool) :
    (spriteBit sp m r c = false ∧ drawPixel sp m r acc c = acc) ∨
    (spriteTarget sp r c = none ∧ drawPixel sp m r acc c = acc) ∨
    (∃ tx ty, spriteBit sp m r c = true ∧ spriteTarget sp r c = some (tx, ty) ∧
      drawPixel sp m r acc c = (logicalFlip sp.mode acc.1 tx ty, acc.2 || logicalHit sp.mode acc.1 tx ty)) := by
  unfold drawPixel
  cases hb : spriteBit sp m r c with
  | false => exact .inl ⟨rfl, by simp⟩
  | true =>
    cases ht : spriteTarget sp r c with
    | none => exact .inr (.inl ⟨rfl, by simp⟩)
    | some p => exact .inr (.inr ⟨p.1, p.2, rfl, rfl, by simp⟩)

/-- The sprite of an instruction fits the grid of its mode: at most 16 rows and 16 columns (R131). -/
theorem spriteOf_fits (x y : Reg) (n : Fin 16) (s : State) :
    (spriteOf x y n s).rows ≤ 16 ∧ (spriteOf x y n s).rowBytes ≤ 2 ∧ 64 ≤ (spriteOf x y n s).width ∧
      32 ≤ (spriteOf x y n s).height := by
  have hn := n.isLt
  cases hm : s.mode <;> simp only [spriteOf, hm, spriteRows, spriteRowBytes, gridWidth, gridHeight, Config.fbWidth,
    Config.fbHeight, Config.loresWidth, Config.loresHeight]
  · omega
  · split <;> omega

/-- A draw either reports the sprite outside memory and does nothing else, or draws (R132, R136). -/
theorem execDrw_cases (x y : Reg) (n : Fin 16) (s : State) :
    (rangeFaults (indexBase s) (spriteLen (spriteOf x y n s)) = true ∧
      execDrw x y n s = .next { s with report := .memoryFault (faultAddr (indexBase s)) }) ∨
    (rangeFaults (indexBase s) (spriteLen (spriteOf x y n s)) = false ∧
      execDrw x y n s = .next (drawInto (spriteOf x y n s) s)) :=
  guardRange_cases s _ _ _

/-- A draw changes the framebuffer and the register file alone. -/
theorem drawInto_eq (sp : Sprite) (s : State) : ∃ v fb, drawInto sp s = { s with v := v, fb := fb } :=
  ⟨_, _, rfl⟩

/-- Of the registers a draw changes `VF` alone (R135). -/
theorem drawInto_getV (sp : Sprite) (s : State) (q : Reg) :
    (drawInto sp s).getV q = if q = vf then collisionFlag sp.mode (drawSprite sp s.mem s.fb).2 else s.getV q := by
  simp [drawInto]

end Sys2Proof.Machine
end

