-- ==== Sys2Proof/Laws/PerInstr.lean ====
section
/-! SUPPORT. A statement for all instructions, one lemma per constructor: the word an instruction is encoded as fits the
instruction's own row of the opcode map (spec/30_encoding.md R64). -/

namespace Sys2Proof.Laws.EncodeRow

/-- The encoding of `i` matches the mask and the value of its row of R64. -/
def Statement (i : Instr) : Prop := (rowOf i).fits (encode i) = true

/-- A word of format `NNN` fits the row of its fixed fields (R63, R64). -/
theorem nnn_row {op : Nat} {v : Word} (h : op < 16) (hv : v.toNat = op * 4096) (nnn : Addr12) :
    (OpcodeRow.mk 0xF000 v).fits (encNNN op nnn) = true := by
  have := nnn.isLt
  exact (fits_F000_iff _ _).2 (by rw [toNat_encNNN h]; omega)

/-- A word of format `XNN` fits the row of its fixed fields (R63, R64). -/
theorem xnn_row {op : Nat} {v : Word} (h : op < 16) (hv : v.toNat = op * 4096) (x : Reg) (nn : Byte) :
    (OpcodeRow.mk 0xF000 v).fits (encXNN op x nn) = true := by
  have := nn.isLt
  have := x.isLt
  exact (fits_F000_iff _ _).2 (by rw [toNat_encXNN h]; omega)

/-- A word of format `XYF` fits the row of its fixed fields (R63, R64). -/
theorem xyf_row {op n : Nat} {v : Word} (h : op < 16) (hn : n < 16) (hv : v.toNat = op * 4096 + n) (x y : Reg) :
    (OpcodeRow.mk 0xF00F v).fits (encXYN op x y n) = true := by
  have := x.isLt
  have := y.isLt
  exact (fits_F00F_iff _ _).2 (by rw [toNat_encXYN h hn]; omega)

/-- A word of format `XFF` fits the row of its fixed fields (R63, R64). -/
theorem xff_row {op low : Nat} {v : Word} (h : op < 16) (hl : low < 256) (hv : v.toNat = op * 4096 + low) (x : Reg) :
    (OpcodeRow.mk 0xF0FF v).fits (encXFF op x low) = true := by
  have := x.isLt
  exact (fits_F0FF_iff _ _).2 (by rw [toNat_encXFF h hl]; omega)

theorem cls : Statement (.cls) := rfl

theorem ret : Statement (.ret) := rfl

theorem exit : Statement (.exit) := rfl

theorem low : Statement (.low) := rfl

theorem high : Statement (.high) := rfl

theorem jp (nnn : Addr12) : Statement (.jp nnn) := nnn_row (by decide) (by decide) nnn

theorem call (nnn : Addr12) : Statement (.call nnn) := nnn_row (by decide) (by decide) nnn

theorem seImm (x : Reg) (nn : Byte) : Statement (.seImm x nn) := xnn_row (by decide) (by decide) x nn

theorem sneImm (x : Reg) (nn : Byte) : Statement (.sneImm x nn) := xnn_row (by decide) (by decide) x nn

theorem seReg (x y : Reg) : Statement (.seReg x y) := xyf_row (by decide) (by decide) (by decide) x y

theorem ldImm (x : Reg) (nn : Byte) : Statement (.ldImm x nn) := xnn_row (by decide) (by decide) x nn

theorem addImm (x : Reg) (nn : Byte) : Statement (.addImm x nn) := xnn_row (by decide) (by decide) x nn

theorem ldReg (x y : Reg) : Statement (.ldReg x y) := xyf_row (by decide) (by decide) (by decide) x y

theorem orReg (x y : Reg) : Statement (.orReg x y) := xyf_row (by decide) (by decide) (by decide) x y

theorem andReg (x y : Reg) : Statement (.andReg x y) := xyf_row (by decide) (by decide) (by decide) x y

theorem xorReg (x y : Reg) : Statement (.xorReg x y) := xyf_row (by decide) (by decide) (by decide) x y

theorem addReg (x y : Reg) : Statement (.addReg x y) := xyf_row (by decide) (by decide) (by decide) x y

theorem subReg (x y : Reg) : Statement (.subReg x y) := xyf_row (by decide) (by decide) (by decide) x y

theorem shr (x y : Reg) : Statement (.shr x y) := xyf_row (by decide) (by decide) (by decide) x y

theorem subn (x y : Reg) : Statement (.subn x y) := xyf_row (by decide) (by decide) (by decide) x y

theorem shl (x y : Reg) : Statement (.shl x y) := xyf_row (by decide) (by decide) (by decide) x y

theorem sneReg (x y : Reg) : Statement (.sneReg x y) := xyf_row (by decide) (by decide) (by decide) x y

theorem ldI (nnn : Addr12) : Statement (.ldI nnn) := nnn_row (by decide) (by decide) nnn

theorem jpV0 (x : Reg) (nnn : Addr12) : Statement (.jpV0 x nnn) := nnn_row (by decide) (by decide) nnn

theorem rnd (x : Reg) (nn : Byte) : Statement (.rnd x nn) := xnn_row (by decide) (by decide) x nn

theorem drw (x y : Reg) (n : Fin 16) : Statement (.drw x y n) := by
  have := x.isLt
  have := y.isLt
  have := n.isLt
  exact (fits_F000_iff _ _).2 (by rw [encode, toNat_encXYN (by decide) n.isLt]; simp; omega)

theorem skp (x : Reg) : Statement (.skp x) := xff_row (by decide) (by decide) (by decide) x

theorem sknp (x : Reg) : Statement (.sknp x) := xff_row (by decide) (by decide) (by decide) x

theorem ldVxDt (x : Reg) : Statement (.ldVxDt x) := xff_row (by decide) (by decide) (by decide) x

theorem ldVxK (x : Reg) : Statement (.ldVxK x) := xff_row (by decide) (by decide) (by decide) x

theorem ldDtVx (x : Reg) : Statement (.ldDtVx x) := xff_row (by decide) (by decide) (by decide) x

theorem ldStVx (x : Reg) : Statement (.ldStVx x) := xff_row (by decide) (by decide) (by decide) x

theorem addI (x : Reg) : Statement (.addI x) := xff_row (by decide) (by decide) (by decide) x

theorem ldF (x : Reg) : Statement (.ldF x) := xff_row (by decide) (by decide) (by decide) x

theorem ldB (x : Reg) : Statement (.ldB x) := xff_row (by decide) (by decide) (by decide) x

theorem storeRegs (x : Reg) : Statement (.storeRegs x) := xff_row (by decide) (by decide) (by decide) x

theorem loadRegs (x : Reg) : Statement (.loadRegs x) := xff_row (by decide) (by decide) (by decide) x

end Sys2Proof.Laws.EncodeRow
end

