-- ==== Sys2Proof/Laws/Step.lean ====
section
/-! SUPPORT. What one step can do, once (spec/30_encoding.md R70; spec/60_exceptions.md R159). -/

namespace Sys2Proof.Machine

/-- A machine that is not RUNNING does nothing but clear `REPORT` (R159). -/
theorem step_of_idle {s : State} (h : s.run ≠ .running) : step s = .next { s with report := .none } := by
  unfold step idleStep
  split
  · exact absurd ‹_› h
  · rfl
  · rfl

/-- A running step is the fetch check and then the fetched instruction (R70). -/
theorem step_of_running {s : State} (h : s.run = .running) :
    step s = if fetchFaults s then raise (.memoryFault (faultAddr s.pc.toNat)) s else runFetched s := by
  unfold step
  split
  · rfl
  · rw [h] at *; contradiction
  · rw [h] at *; contradiction

/-- A fetch outside memory is reported and changes nothing else (R47). -/
theorem step_of_fetchFault {s : State} (h : s.run = .running) (hf : fetchFaults s = true) :
    step s = .next { s with report := .memoryFault (faultAddr s.pc.toNat) } := by
  rw [step_of_running h, if_pos hf, raise_eq]

/-- An unknown word is reported and skipped (R66). -/
theorem step_of_unknown {s : State} {e : DecodeError} (h : s.run = .running) (hf : fetchFaults s = false)
    (hd : decodeWord (fetchWord s) = .error e) :
    step s = .next { fetchAdvance s with report := .unknownOpcode (fetchWord s) } := by
  rw [step_of_running h, if_neg (by simp [hf]), runFetched]
  simp only [hd, raise_eq]

/-- A decoded instruction is executed after the fetch-advance (R70). -/
theorem step_of_decoded {s : State} {i : Instr} (h : s.run = .running) (hf : fetchFaults s = false)
    (hd : decodeWord (fetchWord s) = .ok i) : step s = exec i (fetchAdvance s) := by
  rw [step_of_running h, if_neg (by simp [hf]), runFetched]
  simp only [hd]

/-- Everything a step can do: nothing but clear `REPORT` when not RUNNING; report a fetch outside memory; report an
unknown word after the fetch-advance; or execute the decoded instruction after the fetch-advance. -/
theorem step_cases (s : State) :
    (s.run ≠ .running ∧ step s = .next { s with report := .none }) ∨
    (s.run = .running ∧ fetchFaults s = true ∧
      step s = .next { s with report := .memoryFault (faultAddr s.pc.toNat) }) ∨
    (s.run = .running ∧ fetchFaults s = false ∧ (∃ e, decodeWord (fetchWord s) = .error e) ∧
      step s = .next { fetchAdvance s with report := .unknownOpcode (fetchWord s) }) ∨
    (∃ i, s.run = .running ∧ fetchFaults s = false ∧ decodeWord (fetchWord s) = .ok i ∧
      step s = exec i (fetchAdvance s)) := by
  by_cases h : s.run = .running
  · cases hf : fetchFaults s with
    | true => exact .inr (.inl ⟨h, rfl, step_of_fetchFault h hf⟩)
    | false =>
      cases hd : decodeWord (fetchWord s) with
      | error e => exact .inr (.inr (.inl ⟨h, rfl, ⟨e, rfl⟩, step_of_unknown h hf hd⟩))
      | ok i => exact .inr (.inr (.inr ⟨i, h, rfl, rfl, step_of_decoded h hf hd⟩))
  · exact .inl ⟨h, step_of_idle h⟩

end Sys2Proof.Machine
end

