-- ==== Sys2Proof/Tests/Slice0.lean ====
section
/-! SUPPORT. The model's own tests: expected results are the vectors of spec/95_test_vectors.md (their ids stand in the
docstrings) or hand-worked from the rules named; and for every statement with hypotheses a witness that meets them. -/

namespace Sys2Proof.Tests

open Sys2Proof.Machine Sys2Proof.Safety

/-! ## Helpers -/

/-- The reset state with bytes placed at `0x200`. -/
def withProgram (bytes : List Byte) : State := { State.reset with mem := State.reset.mem.writeBytes 0x200 bytes }

/-- Registers given before the first step. -/
def giving (regs : List (Reg × Byte)) (s : State) : State := regs.foldl (fun t p => t.setV p.1 p.2) s

/-- Bytes placed in memory before the first step. -/
def placing (a : Nat) (bytes : List Byte) (s : State) : State := s.setMem (s.mem.writeBytes a bytes)

/-- Backing pixels (column, row) lit before the first step. -/
def lighting (pixels : List (Nat × Nat)) (s : State) : State :=
  s.setFb (pixels.foldl (fun fb p => fbFlip fb p.1 p.2) s.fb)

/-- The outcome is a next state with a property. -/
def after (o : Outcome) (p : State → Bool) : Bool :=
  match o with
  | .next t => p t
  | .fault _ => false
  | .refused _ => false

/-- Exactly these backing pixels are lit. -/
def litIs (pixels : List (Nat × Nat)) (t : State) : Bool := decide (t.fb = (lighting pixels State.reset).fb)

/-- The modern settings with the legacy quirk on. -/
def legacyOn (s : State) : State := { s with quirks := { s.quirks with legacy := true } }

/-- Clipping on. -/
def clipOn (s : State) : State := { s with quirks := { s.quirks with clipping := true } }

/-- `vfReset` on. -/
def vfResetOn (s : State) : State := { s with quirks := { s.quirks with vfReset := true } }

/-! ## Well-formedness and decoding -/

/-- The register operand of `Bnnn` must be the top nibble of `nnn` (R63, R68). -/
theorem test_wellFormed_refuses_jpV0 : WellFormed (.jpV0 3 0x234) = false := by decide

/-- The well-formed form of the same word. -/
theorem test_wellFormed_jpV0 : WellFormed (.jpV0 2 0x234) = true := by decide

/-- Format FIX, words bit by bit from R64. -/
theorem test_decode_fix :
    decodeWord 0b0000000011100000 = .ok .cls ∧ decodeWord 0b0000000011101110 = .ok .ret ∧
    decodeWord 0b0000000011111101 = .ok .exit ∧ decodeWord 0b0000000011111110 = .ok .low ∧
    decodeWord 0b0000000011111111 = .ok .high := by decide

/-- Format NNN. -/
theorem test_decode_nnn :
    decodeWord 0b0001101010111100 = .ok (.jp 0xABC) ∧ decodeWord 0b0010101010111100 = .ok (.call 0xABC) ∧
    decodeWord 0b1010001011110000 = .ok (.ldI 0x2F0) ∧ decodeWord 0b1011001000110100 = .ok (.jpV0 2 0x234) := by
  decide

/-- Format XNN. -/
theorem test_decode_xnn :
    decodeWord 0b0011001100101010 = .ok (.seImm 3 0x2A) ∧ decodeWord 0b0100001100101010 = .ok (.sneImm 3 0x2A) ∧
    decodeWord 0b0110101000000101 = .ok (.ldImm 10 0x05) ∧ decodeWord 0b0111001000100000 = .ok (.addImm 2 0x20) ∧
    decodeWord 0b1100000100001111 = .ok (.rnd 1 0x0F) := by decide

/-- Format XYF. -/
theorem test_decode_xyf :
    decodeWord 0b0101000100100000 = .ok (.seReg 1 2) ∧ decodeWord 0b1001000100100000 = .ok (.sneReg 1 2) ∧
    decodeWord 0b1000000101000000 = .ok (.ldReg 1 4) ∧ decodeWord 0b1000000100100001 = .ok (.orReg 1 2) ∧
    decodeWord 0b1000000100100010 = .ok (.andReg 1 2) ∧ decodeWord 0b1000000100100011 = .ok (.xorReg 1 2) ∧
    decodeWord 0b1000101010110100 = .ok (.addReg 10 11) ∧ decodeWord 0b1000000100100101 = .ok (.subReg 1 2) ∧
    decodeWord 0b1000000100100110 = .ok (.shr 1 2) ∧ decodeWord 0b1000000100100111 = .ok (.subn 1 2) ∧
    decodeWord 0b1000000100101110 = .ok (.shl 1 2) := by decide

/-- Format XYN. -/
theorem test_decode_xyn : decodeWord 0b1101000100100101 = .ok (.drw 1 2 5) := by decide

/-- Format XFF. -/
theorem test_decode_xff :
    decodeWord 0b1110010110011110 = .ok (.skp 5) ∧ decodeWord 0b1110010110100001 = .ok (.sknp 5) ∧
    decodeWord 0b1111001000000111 = .ok (.ldVxDt 2) ∧ decodeWord 0b1111001100001010 = .ok (.ldVxK 3) ∧
    decodeWord 0b1111001000010101 = .ok (.ldDtVx 2) ∧ decodeWord 0b1111001000011000 = .ok (.ldStVx 2) ∧
    decodeWord 0b1111001000011110 = .ok (.addI 2) ∧ decodeWord 0b1111001100101001 = .ok (.ldF 3) ∧
    decodeWord 0b1111000100110011 = .ok (.ldB 1) ∧ decodeWord 0b1111001001010101 = .ok (.storeRegs 2) ∧
    decodeWord 0b1111001001100101 = .ok (.loadRegs 2) := by decide

/-- E1 to E10 and the SUPER-CHIP words of R67: unknown, with the word as payload. -/
theorem test_decode_unknown :
    decodeWord 0x0000 = .error (.unknownOpcode 0x0000) ∧
    decodeWord 0x00E1 = .error (.unknownOpcode 0x00E1) ∧
    decodeWord 0x01E0 = .error (.unknownOpcode 0x01E0) ∧
    decodeWord 0x0123 = .error (.unknownOpcode 0x0123) ∧
    decodeWord 0x00FB = .error (.unknownOpcode 0x00FB) ∧
    decodeWord 0x00C4 = .error (.unknownOpcode 0x00C4) ∧
    decodeWord 0x5121 = .error (.unknownOpcode 0x5121) ∧
    decodeWord 0x9121 = .error (.unknownOpcode 0x9121) ∧
    decodeWord 0x8128 = .error (.unknownOpcode 0x8128) ∧
    decodeWord 0x812F = .error (.unknownOpcode 0x812F) ∧
    decodeWord 0xE59F = .error (.unknownOpcode 0xE59F) ∧
    decodeWord 0xF208 = .error (.unknownOpcode 0xF208) ∧
    decodeWord 0xF030 = .error (.unknownOpcode 0xF030) := by decide

/-- S1: the fields of two words. -/
theorem test_fields :
    opField 0x8AB4 = 8 ∧ xField 0x8AB4 = 10 ∧ yField 0x8AB4 = 11 ∧ nField 0x8AB4 = 4 ∧ nnField 0x8AB4 = 0xB4 ∧
    nnnField 0x8AB4 = 0xAB4 ∧ opField 0xF065 = 15 ∧ xField 0xF065 = 0 ∧ yField 0xF065 = 6 ∧ nField 0xF065 = 5 ∧
    nnField 0xF065 = 0x65 ∧ nnnField 0xF065 = 0x065 := by decide

/-- Fewer than two bytes hold no instruction. -/
theorem test_decode_truncated : decode [] = .error .truncated ∧ decode [0x6A] = .error .truncated := by decide

/-- The opcode table's numbering: one 16-bit word, most significant bits in the byte fetched first. -/
theorem test_decodeTableWord : decodeTableWord 16 0x8AB4 = some (.addReg 10 11) ∧ decodeTableWord 16 0x8AB8 = none := by
  decide

/-- A placed word is the one the next step runs. -/
theorem test_withFetchWord :
    after (step (State.reset.withFetchWord 16 0x6A05)) (fun t => t.getV 10 == 5 && t.pc == 0x202) = true := by decide

/-! ## System and display control -/

/-- Y1. -/
theorem test_cls : after (step (lighting [(0, 0), (5, 5), (127, 63)] (withProgram [0x00, 0xE0])))
    (fun t => litIs [] t && t.pc == 0x202) = true := by decide

/-- Y4: the step after is a no-op. -/
theorem test_exit : after (core.run 2 (withProgram [0x00, 0xFD, 0x6A, 0x05]))
    (fun t => t.run == .stopped && t.pc == 0x202 && t.getV 10 == 0) = true := by decide

/-- Y3. -/
theorem test_low : after (step { withProgram [0x00, 0xFE] with mode := .hires })
    (fun t => t.mode == .lores && t.pc == 0x202 && dispW t == 64) = true := by decide

/-- Y5: the picture is kept. -/
theorem test_high : after (step (lighting [(0, 0), (1, 0), (0, 1), (1, 1)] (withProgram [0x00, 0xFF])))
    (fun t => t.mode == .hires && litIs [(0, 0), (1, 0), (0, 1), (1, 1)] t && dispW t == 128) = true := by decide

/-! ## Control flow -/

/-- J1. -/
theorem test_jp : after (step (withProgram [0x1A, 0xBC])) (fun t => t.pc == 0xABC) = true := by decide

/-- J3. -/
theorem test_call : after (step (withProgram [0x2A, 0xBC]))
    (fun t => t.pc == 0xABC && t.sp == 1 && t.stackEntry 0 == some 0x202) = true := by decide

/-- J17, step 17: a full stack of 16 entries. -/
theorem test_call_overflow : after (step { withProgram [0x22, 0x00] with stack := List.replicate 16 0x202 })
    (fun t => t.report == .stackOverflow && t.sp == 16 && t.pc == 0x202) = true := by decide

/-- S4. -/
theorem test_ret : after (core.run 2 (withProgram [0x22, 0x04, 0x00, 0x00, 0x00, 0xEE]))
    (fun t => t.pc == 0x202 && t.sp == 0 && t.report == .none) = true := by decide

/-- X2. -/
theorem test_ret_underflow : after (step (withProgram [0x00, 0xEE]))
    (fun t => t.report == .stackUnderflow && t.pc == 0x202 && t.sp == 0) = true := by decide

/-- J4, J5. -/
theorem test_seImm :
    after (step (giving [(10, 5)] (withProgram [0x3A, 0x05]))) (fun t => t.pc == 0x204) = true ∧
    after (step (giving [(10, 6)] (withProgram [0x3A, 0x05]))) (fun t => t.pc == 0x202) = true := by decide

/-- J6, J7. -/
theorem test_sneImm :
    after (step (giving [(10, 5)] (withProgram [0x4A, 0x05]))) (fun t => t.pc == 0x202) = true ∧
    after (step (giving [(10, 6)] (withProgram [0x4A, 0x05]))) (fun t => t.pc == 0x204) = true := by decide

/-- J8, J9. -/
theorem test_seReg :
    after (step (giving [(1, 9), (2, 9)] (withProgram [0x51, 0x20]))) (fun t => t.pc == 0x204) = true ∧
    after (step (giving [(1, 9), (2, 8)] (withProgram [0x51, 0x20]))) (fun t => t.pc == 0x202) = true := by decide

/-- J11, J12. -/
theorem test_sneReg :
    after (step (giving [(1, 9), (2, 9)] (withProgram [0x91, 0x20]))) (fun t => t.pc == 0x202) = true ∧
    after (step (giving [(1, 9), (2, 8)] (withProgram [0x91, 0x20]))) (fun t => t.pc == 0x204) = true := by decide

/-- J13, J14. -/
theorem test_jpV0 :
    after (step (giving [(0, 0x10), (3, 0x20)] (withProgram [0xB3, 0x00]))) (fun t => t.pc == 0x310) = true ∧
    after (step { giving [(0, 0x10), (3, 0x20)] (withProgram [0xB3, 0x00]) with quirks := ⟨false, false, true, false⟩ })
      (fun t => t.pc == 0x320) = true := by decide

/-- J15: the sum is not reduced, and the next fetch is out of range. -/
theorem test_jpV0_out : after (core.run 2 (giving [(0, 0xFF)] (withProgram [0xBF, 0xFF])))
    (fun t => t.pc == 0x10FE && t.report == .memoryFault 0x10FE) = true := by decide

/-! ## Load immediate and ALU -/

/-- S6. -/
theorem test_ldImm : after (step (withProgram [0x6A, 0x05])) (fun t => t.getV 10 == 5 && t.pc == 0x202) = true := by
  decide

/-- A2: a wrap, and no flag. -/
theorem test_addImm : after (step (giving [(10, 0xFF), (15, 9)] (withProgram [0x7A, 0x01])))
    (fun t => t.getV 10 == 0 && t.getV 15 == 9) = true := by decide

/-- A4. -/
theorem test_ldReg : after (step (giving [(1, 1), (2, 0x77)] (withProgram [0x81, 0x20])))
    (fun t => t.getV 1 == 0x77 && t.getV 2 == 0x77) = true := by decide

/-- S5. -/
theorem test_or :
    after (step (giving [(1, 0x0C), (2, 5), (15, 7)] (withProgram [0x81, 0x21])))
      (fun t => t.getV 1 == 0x0D && t.getV 15 == 7) = true ∧
    after (step (vfResetOn (giving [(1, 0x0C), (2, 5), (15, 7)] (withProgram [0x81, 0x21]))))
      (fun t => t.getV 1 == 0x0D && t.getV 15 == 0) = true := by decide

/-- A18, A18b: `VF` as the destination. -/
theorem test_or_vf :
    after (step (giving [(15, 0x0F), (1, 0xF0)] (withProgram [0x8F, 0x11]))) (fun t => t.getV 15 == 0xFF) = true ∧
    after (step (vfResetOn (giving [(15, 0x0F), (1, 0xF0)] (withProgram [0x8F, 0x11]))))
      (fun t => t.getV 15 == 0) = true := by decide

/-- A6. -/
theorem test_and : after (step (giving [(1, 0xF0), (2, 0x3C), (15, 9)] (withProgram [0x81, 0x22])))
    (fun t => t.getV 1 == 0x30 && t.getV 15 == 9) = true := by decide

/-- A7, A7b. -/
theorem test_xor :
    after (step (giving [(1, 0xF0), (2, 0x3C), (15, 9)] (withProgram [0x81, 0x23])))
      (fun t => t.getV 1 == 0xCC && t.getV 15 == 9) = true ∧
    after (step (vfResetOn (giving [(1, 0xF0), (2, 0x3C), (15, 9)] (withProgram [0x81, 0x23]))))
      (fun t => t.getV 1 == 0xCC && t.getV 15 == 0) = true := by decide

/-- A8, A8b. -/
theorem test_addReg :
    after (step (giving [(1, 0xFF), (2, 1)] (withProgram [0x81, 0x24])))
      (fun t => t.getV 1 == 0 && t.getV 15 == 1) = true ∧
    after (step (giving [(1, 0x80), (2, 0x7F), (15, 1)] (withProgram [0x81, 0x24])))
      (fun t => t.getV 1 == 0xFF && t.getV 15 == 0) = true := by decide

/-- A12, A17: `VF` as destination and as operand. -/
theorem test_addReg_vf :
    after (step (giving [(15, 0xF0), (1, 0x20)] (withProgram [0x8F, 0x14]))) (fun t => t.getV 15 == 0x10) = true ∧
    after (step (giving [(1, 0xFF), (15, 1)] (withProgram [0x81, 0xF4])))
      (fun t => t.getV 1 == 0 && t.getV 15 == 1) = true := by decide

/-- A9, A9b. -/
theorem test_subReg :
    after (step (giving [(1, 5), (2, 5)] (withProgram [0x81, 0x25])))
      (fun t => t.getV 1 == 0 && t.getV 15 == 1) = true ∧
    after (step (giving [(1, 5), (2, 6)] (withProgram [0x81, 0x25])))
      (fun t => t.getV 1 == 0xFF && t.getV 15 == 0) = true := by decide

/-- A13, A17b. -/
theorem test_subReg_vf :
    after (step (giving [(15, 0x10), (1, 0x20)] (withProgram [0x8F, 0x15]))) (fun t => t.getV 15 == 0xF0) = true ∧
    after (step (giving [(1, 0), (15, 1)] (withProgram [0x81, 0xF5])))
      (fun t => t.getV 1 == 0xFF && t.getV 15 == 0) = true := by decide

/-- A10, A10b. -/
theorem test_shr :
    after (step (giving [(1, 5), (2, 0x80)] (withProgram [0x81, 0x26])))
      (fun t => t.getV 1 == 2 && t.getV 15 == 1 && t.getV 2 == 0x80) = true ∧
    after (step (legacyOn (giving [(1, 5), (2, 0x80)] (withProgram [0x81, 0x26]))))
      (fun t => t.getV 1 == 0x40 && t.getV 15 == 0 && t.getV 2 == 0x80) = true := by decide

/-- A14, A14c: the flag wins. -/
theorem test_shr_vf :
    after (step (giving [(15, 6)] (withProgram [0x8F, 0x16]))) (fun t => t.getV 15 == 0) = true ∧
    after (step (legacyOn (giving [(15, 7), (1, 4)] (withProgram [0x8F, 0x16])))) (fun t => t.getV 15 == 0) = true := by
  decide

/-- A11, A11b. -/
theorem test_subn :
    after (step (giving [(1, 5), (2, 6)] (withProgram [0x81, 0x27])))
      (fun t => t.getV 1 == 1 && t.getV 15 == 1) = true ∧
    after (step (giving [(1, 6), (2, 5)] (withProgram [0x81, 0x27])))
      (fun t => t.getV 1 == 0xFF && t.getV 15 == 0) = true := by decide

/-- A15. -/
theorem test_subn_vf : after (step (giving [(15, 0x10), (1, 0x20)] (withProgram [0x8F, 0x17])))
    (fun t => t.getV 15 == 0x10) = true := by decide

/-- A11d, A11e. -/
theorem test_shl :
    after (step (giving [(1, 0x81), (2, 0x40)] (withProgram [0x81, 0x2E])))
      (fun t => t.getV 1 == 2 && t.getV 15 == 1) = true ∧
    after (step (legacyOn (giving [(1, 0x81), (2, 0x40)] (withProgram [0x81, 0x2E]))))
      (fun t => t.getV 1 == 0x80 && t.getV 15 == 0) = true := by decide

/-- A16. -/
theorem test_shl_vf : after (step (giving [(15, 0x81)] (withProgram [0x8F, 0x1E]))) (fun t => t.getV 15 == 1) = true := by
  decide

/-- A19, with the byte lined up on `RNG`. -/
theorem test_rnd : after (step { withProgram [0xC1, 0x0F] with rngIn := [0xA7] })
    (fun t => t.getV 1 == 7 && t.rngIn == [] && t.rngDraws == 0) = true := by decide

/-! ## Index register and memory -/

/-- The example of R120. -/
theorem test_ldI : after (step { withProgram [0xA2, 0xF0] with i := 0xF000 }) (fun t => t.i == 0x2F0) = true := by decide

/-- The corner cases of R121: a wrap, and no flag. -/
theorem test_addI :
    after (step (giving [(2, 1), (15, 9)] { withProgram [0xF2, 0x1E] with i := 0xFFFF }))
      (fun t => t.i == 0 && t.getV 15 == 9) = true ∧
    after (step (giving [(2, 1), (15, 9)] { withProgram [0xF2, 0x1E] with i := 0x0FFF }))
      (fun t => t.i == 0x1000 && t.getV 15 == 9) = true := by decide

/-- The example of R122, and a byte above 15. -/
theorem test_ldF :
    after (step (giving [(3, 0x0A)] (withProgram [0xF3, 0x29]))) (fun t => t.i == 0x082) = true ∧
    after (step (giving [(3, 0xFF)] (withProgram [0xF3, 0x29]))) (fun t => t.i == 0x54B) = true := by decide

/-- The example of R123. -/
theorem test_ldB : after (step (giving [(1, 0x9C)] { withProgram [0xF1, 0x33] with i := 0x300 }))
    (fun t => t.mem.read 0x300 == 1 && t.mem.read 0x301 == 5 && t.mem.read 0x302 == 6 && t.i == 0x300) = true := by
  decide

/-- M4d: no wrap. -/
theorem test_ldB_out : after (step (giving [(1, 0x7B)] { withProgram [0xF1, 0x33] with i := 0xFFFF }))
    (fun t => t.report == .memoryFault 0xFFFF && t.mem == (withProgram [0xF1, 0x33]).mem && t.pc == 0x202) = true := by
  decide

/-- The example of R124, modern and legacy. -/
theorem test_storeRegs :
    after (step (giving [(0, 0x11), (1, 0x22), (2, 0x33), (3, 0x44)] { withProgram [0xF2, 0x55] with i := 0x400 }))
      (fun t => t.mem.read 0x400 == 0x11 && t.mem.read 0x402 == 0x33 && t.mem.read 0x403 == 0 && t.i == 0x400) = true ∧
    after (step (legacyOn (giving [(0, 0x11)] { withProgram [0xF2, 0x55] with i := 0x400 })))
      (fun t => t.i == 0x403) = true := by decide

/-- M5c: no partial store. -/
theorem test_storeRegs_out : after (step (giving [(0, 0xA0), (15, 0xAF)] { withProgram [0xFF, 0x55] with i := 0xFF1 }))
    (fun t => t.report == .memoryFault 0x1000 && t.mem.read 0xFF1 == 0 && t.i == 0xFF1) = true := by decide

/-- M6, M6b: three bytes of glyph 0. -/
theorem test_loadRegs :
    after (step (giving [(3, 0x77)] { withProgram [0xF2, 0x65] with i := 0x050 }))
      (fun t => t.getV 0 == 0xF0 && t.getV 1 == 0x90 && t.getV 2 == 0x90 && t.getV 3 == 0x77 && t.i == 0x050) = true ∧
    after (step (legacyOn (giving [(3, 0x77)] { withProgram [0xF2, 0x65] with i := 0x050 })))
      (fun t => t.getV 3 == 0x77 && t.i == 0x053) = true := by decide

/-- M6d: no partial load. -/
theorem test_loadRegs_out : after (step (giving [(0, 1), (1, 2)] { withProgram [0xF1, 0x65] with i := 0xFFF }))
    (fun t => t.report == .memoryFault 0x1000 && t.getV 0 == 1 && t.getV 1 == 2) = true := by decide

/-! ## Draw -/

/-- G3: a wrap at the bottom in lores, each logical pixel a block of four. -/
theorem test_drw_wrap : after (step (giving [(2, 0x1F)] (placing 0x300 [0x80, 0x80]
    { withProgram [0xD1, 0x22] with i := 0x300 })))
    (fun t => litIs [(0, 62), (1, 62), (0, 63), (1, 63), (0, 0), (1, 0), (0, 1), (1, 1)] t && t.getV 15 == 0) = true := by
  decide

/-- G23, G24: hires rows counted, clipped and wrapped. -/
theorem test_drw_count :
    after (step (clipOn (giving [(2, 0x3E)] (placing 0x300 [0x80, 0x80, 0x80] (lighting [(0, 62), (0, 63), (0, 0)]
      { withProgram [0xD1, 0x23] with i := 0x300, mode := .hires }))))) (fun t => litIs [(0, 0)] t && t.getV 15 == 2) = true ∧
    after (step (giving [(2, 0x3E)] (placing 0x300 [0x80, 0x80, 0x80] (lighting [(0, 62), (0, 63), (0, 0)]
      { withProgram [0xD1, 0x23] with i := 0x300, mode := .hires })))) (fun t => litIs [] t && t.getV 15 == 3) = true := by
  decide

/-! ## Keypad and timers -/

/-- K1, K5: the low four bits name the key. -/
theorem test_skp :
    after (step (giving [(5, 0x1A)] { withProgram [0xE5, 0x9E] with keys := 0x0400 })) (fun t => t.pc == 0x204) = true ∧
    after (step (giving [(5, 0x0A)] (withProgram [0xE5, 0x9E]))) (fun t => t.pc == 0x202) = true := by decide

/-- K3, K5b. -/
theorem test_sknp :
    after (step (giving [(5, 0x0A)] (withProgram [0xE5, 0xA1]))) (fun t => t.pc == 0x204) = true ∧
    after (step (giving [(5, 0xFF)] { withProgram [0xE5, 0xA1] with keys := 0x8000 })) (fun t => t.pc == 0x202) = true := by
  decide

/-- K6. -/
theorem test_ldVxDt : after (step { withProgram [0xF2, 0x07] with dt := 0x3C }) (fun t => t.getV 2 == 0x3C) = true := by
  decide

/-- K9: no key, the instruction is fetched again. -/
theorem test_ldVxK_wait : after (step (giving [(3, 9)] (withProgram [0xF3, 0x0A])))
    (fun t => t.pc == 0x200 && t.getV 3 == 9) = true := by decide

/-- K11: keys 4, 9 and C, the lowest is stored. -/
theorem test_ldVxK : after (step { withProgram [0xF3, 0x0A] with keys := 0x1210 })
    (fun t => t.pc == 0x202 && t.getV 3 == 4) = true := by decide

/-- K7. -/
theorem test_ldDtVx : after (step (giving [(2, 0x3C)] (withProgram [0xF2, 0x15])))
    (fun t => t.dt == 0x3C && t.st == 0) = true := by decide

/-- K8: the tone sounds for two ticks. -/
theorem test_ldStVx : after (step (giving [(2, 2)] (withProgram [0xF2, 0x18])))
    (fun t => t.st == 2 && t.dt == 0 && sound t && sound (tickEvent t) && !sound (tickEvent (tickEvent t)) &&
      (tickEvent (tickEvent (tickEvent t))).st == 0) = true := by decide

/-! ## Reports, events, reset -/

/-- E3: an unknown word changes nothing but `PC`. -/
theorem test_unknown : after (step (lighting [(0, 0)] (withProgram [0x01, 0xE0])))
    (fun t => t.report == .unknownOpcode 0x01E0 && t.pc == 0x202 && litIs [(0, 0)] t) = true := by decide

/-- X1, X3: the last slot runs, the fetch after it is reported, for ever. -/
theorem test_fetch_end :
    after (core.run 3 (placing 0xFFE [0x6A, 0x05] { State.reset with pc := 0xFFE }))
      (fun t => t.getV 10 == 5 && t.pc == 0x1000 && t.report == .memoryFault 0x1000 && t.run == .running) = true ∧
    step { State.reset with pc := 0xFFF } =
      .next { State.reset with pc := 0xFFF, report := .memoryFault 0x1000 } := ⟨by decide, rfl⟩

/-- X4: steps and ticks do nothing while paused, and nothing after `stop`. -/
theorem test_events :
    after (applyEvents [.step, .pauseToggle, .step, .tick, .pauseToggle, .tick, .step, .stop, .step, .tick, .pauseToggle]
      { withProgram [0x60, 0x01, 0x60, 0x02, 0x60, 0x03] with dt := 5, st := 1 })
      (fun t => t.getV 0 == 2 && t.pc == 0x204 && t.dt == 4 && t.st == 0 && t.run == .stopped) = true := by decide

/-- Section Z: reset with the ROM `6A 05` and an empty large font. -/
theorem test_reset : after (resetEvent { rom := [0x6A, 0x05], initialHires := false, largeFont := some ⟨[], by decide⟩ }
    State.reset)
    (fun t => t.mem.read 0x04F == 0 && t.mem.read 0x050 == 0xF0 && t.mem.read 0x051 == 0x90 && t.mem.read 0x09B == 0xF0 &&
      t.mem.read 0x09F == 0x80 && t.mem.read 0x0A0 == 0 && t.mem.read 0x200 == 0x6A && t.mem.read 0x201 == 0x05 &&
      t.mem.read 0x202 == 0 && t.pc == 0x200 && t.run == .running && t.mode == .lores) = true := by decide +kernel

/-- R181, U14: with no large font given, a byte of its region is the free value until it is written (R42). -/
theorem test_reset_unknown : State.reset.mem.read 0x0A0 = Config.freeFontLarge 0 ∧
    after (step (giving [(0, 7)] { withProgram [0xF0, 0x55] with i := 0x0A0 }))
      (fun t => t.mem.read 0x0A0 == 7 && t.mem.read 0x200 == 0xF0) = true := ⟨rfl, by decide⟩

/-- The strict reading of E1: the reporting step is a fault. -/
theorem test_strict : strictStep (withProgram [0x00, 0x00]) = .fault (.reported (.unknownOpcode 0x0000)) := rfl

/-- The decoder's two spellings of the opcode map agree on the rows of R64: 37 of them, no two alike. -/
theorem test_rows : opcodeRows.length = 37 ∧ opcodeRows.Nodup := by decide

/-! ## Witnesses: for each statement with hypotheses, a state and operands that meet them -/

/-- A running state about to run `6A05`. -/
def ready : State := withProgram [0x6A, 0x05]

theorem witness_DecodeOfEncode : WellFormed (.jpV0 15 0xFFF) = true ∧ WellFormed (.jpV0 0 0x000) = true := by decide

theorem witness_EncodeOfDecode : decodeWord 0xBFFF = .ok (.jpV0 15 0xFFF) := by decide

theorem witness_StepAlgorithm_idle : ({ ready with run := .paused } : State).run ≠ .running := by decide

theorem witness_StepAlgorithm_fetchFault :
    ({ ready with pc := 0xFFF } : State).run = .running ∧ 0xFFF < ({ ready with pc := 0xFFF } : State).pc.toNat + 1 := by
  decide

theorem witness_StepAlgorithm_decoded :
    (placing 0xFFE [0x6A, 0x05] { ready with pc := 0xFFE }).pc.toNat + 1 ≤ 0xFFF ∧
    (0x6A05 : Word).toNat = ((placing 0xFFE [0x6A, 0x05] ready).mem.read 0xFFE).toNat * 256 +
      ((placing 0xFFE [0x6A, 0x05] ready).mem.read 0xFFF).toNat ∧ decodeWord 0x6A05 = .ok (.ldImm 10 5) := by decide

theorem witness_StepAlgorithm_unknown :
    (withProgram []).run = .running ∧ fetchWord (withProgram []) = 0 ∧
    decodeWord 0x0000 = .error (.unknownOpcode 0x0000) := by decide

theorem witness_StepRunsDecodedInstruction :
    ready.run = .running ∧ ready.pc.toNat ≤ 0xFFE ∧ WellFormed (.ldImm 10 5) = true ∧
    decode [ready.mem.read ready.pc.toNat, ready.mem.read (ready.pc.toNat + 1)] = .ok (.ldImm 10 5, []) := by decide

theorem witness_FetchFaultRepeats :
    ({ ready with pc := 0xFFF } : State).run = .running ∧ 0xFFF ≤ ({ ready with pc := 0xFFF } : State).pc.toNat := by
  decide

theorem witness_UnknownOpcodeIsReportedNoop :
    (withProgram [0x51, 0x21]).run = .running ∧ (withProgram [0x51, 0x21]).pc.toNat + 1 ≤ 0xFFF ∧
    (0x5121 : Word).toNat = ((withProgram [0x51, 0x21]).mem.read 0x200).toNat * 256 +
      ((withProgram [0x51, 0x21]).mem.read 0x201).toNat ∧
    (∀ r ∈ opcodeRows, (0x5121 : Word) &&& r.mask ≠ r.value) := by decide

theorem witness_PlacedInstructionRunsNext : WellFormed (.jpV0 2 0x234) = true := by decide

theorem witness_ReportingStepIsPrecise :
    ∃ t, (withProgram [0x00, 0xEE]).run = .running ∧ step (withProgram [0x00, 0xEE]) = .next t ∧ t.report ≠ .none :=
  ⟨_, rfl, rfl, by decide⟩

theorem witness_ReportsHaveTheirCauses_unknown :
    ∃ t, step (withProgram [0x00, 0x00]) = .next t ∧ t.report = .unknownOpcode 0x0000 := ⟨_, rfl, rfl⟩

theorem witness_ReportsHaveTheirCauses_underflow :
    ∃ t, step (withProgram [0x00, 0xEE]) = .next t ∧ t.report = .stackUnderflow := ⟨_, rfl, rfl⟩

theorem witness_ReportsHaveTheirCauses_overflow :
    ∃ t, step { withProgram [0x22, 0x00] with stack := List.replicate 16 0x202 } = .next t ∧
      t.report = .stackOverflow := ⟨_, rfl, rfl⟩

theorem witness_ReportsHaveTheirCauses_fetch :
    ∃ t, step { ready with pc := 0xFFF } = .next t ∧ t.report = .memoryFault 0x1000 := ⟨_, rfl, rfl⟩

theorem witness_ReportsHaveTheirCauses_access :
    ∃ t, step { withProgram [0xF1, 0x33] with i := 0xFFE } = .next t ∧ t.report = .memoryFault 0x1000 := ⟨_, rfl, rfl⟩

theorem witness_OnlyExitChangesRunState :
    ∃ t, step (withProgram [0x00, 0xFD]) = .next t ∧ t.run ≠ (withProgram [0x00, 0xFD]).run := ⟨_, rfl, by decide⟩

theorem ready_inv : Inv ready := ⟨by decide, by decide, by decide, fun a ha => nomatch ha⟩

theorem witness_StepKeepsInvariant : ∃ t, Inv ready ∧ step ready = .next t := ⟨_, ready_inv, rfl⟩

theorem witness_EventsKeepInvariant :
    ∃ t, Inv ready ∧ applyEvents [.step, .tick, .stop] ready = .next t := ⟨_, ready_inv, rfl⟩

theorem witness_OnlyListedInstructionsWrite_mem :
    ∃ t, exec (.storeRegs 0) (giving [(0, 7)] State.reset) = .next t ∧
      ∃ a, t.mem.read a ≠ (giving [(0, 7)] State.reset).mem.read a := ⟨_, rfl, 0, by decide⟩

theorem witness_OnlyListedInstructionsWrite_i :
    ∃ t, exec (.loadRegs 0) (legacyOn State.reset) = .next t ∧ t.i ≠ (legacyOn State.reset).i := ⟨_, rfl, by decide⟩

theorem witness_OnlyNamedRegistersChange :
    ∃ t, exec (.ldImm 10 5) State.reset = .next t ∧ t.getV 10 ≠ State.reset.getV 10 := ⟨_, rfl, by decide⟩

theorem witness_QuirksAffectOnlyTheirInstructions :
    ∃ t, exec (.jpV0 2 0x234) State.reset = .next t ∧
      ((quirksRead (.jpV0 2 0x234)).jumping = true → (⟨true, true, false, true⟩ : Quirks).jumping =
        State.reset.quirks.jumping) ∧
      (quirksRead (.jpV0 2 0x234)).vfReset = false ∧ (quirksRead (.jpV0 2 0x234)).clipping = false ∧
      (quirksRead (.jpV0 2 0x234)).legacy = false := ⟨_, rfl, by decide, rfl, rfl, rfl⟩

theorem witness_DisplayAndToneAreWriteOnly :
    ∃ t u w, exec (.ldImm 10 5) State.reset = .next t ∧
      exec (.ldImm 10 5) { State.reset with fb := (lighting [(0, 0)] State.reset).fb, st := 9 } = .next u ∧
      exec (.ldImm 10 5) { State.reset with st := 9 } = .next w := ⟨_, _, _, rfl, rfl, rfl⟩

theorem witness_OutputsShowState :
    ({ State.reset with mode := .hires } : State).mode = .hires ∧ State.reset.mode = .lores := by decide

theorem witness_RetPopsOrReports : State.reset.sp = 0 ∧ 0 < ({ State.reset with stack := [0x202] } : State).sp := by
  decide

theorem witness_JumpSetsPc : State.reset.run = .running ∧ (0xFFF : Addr12) = 0xFFF := by decide

theorem witness_CallPushesOrReports :
    ({ State.reset with stack := List.replicate 16 0x202 } : State).sp = 16 ∧
    ({ State.reset with stack := List.replicate 15 0x202 } : State).sp < 16 := by decide

theorem witness_CallThenReturnComesBack : ({ State.reset with stack := List.replicate 15 0x202 } : State).sp < 16 := by
  decide

theorem witness_JumpWithOffset : WellFormed (.jpV0 2 0x234) = true ∧ (legacyOn State.reset).quirks.jumping = false ∧
    ({ State.reset with quirks := ⟨false, false, true, false⟩ } : State).quirks.jumping = true := by decide

theorem witness_LogicOperations :
    ((Instr.orReg 1 2 = .orReg 1 2 ∧ or = or) ∨ (Instr.orReg 1 2 = .andReg 1 2 ∧ or = and) ∨
      (Instr.orReg 1 2 = .xorReg 1 2 ∧ or = xor)) ∧
    (vfResetOn State.reset).quirks.vfReset = true ∧ State.reset.quirks.vfReset = false := ⟨.inl ⟨rfl, rfl⟩, rfl, rfl⟩

theorem witness_AddSetsCarry : (1 : Reg) ≠ vf ∧ 255 < (0xFF : Byte).toNat + (0x01 : Byte).toNat := by decide

theorem witness_SubtractSetsNoBorrow : (1 : Reg) ≠ vf ∧ (5 : Byte).toNat ≤ (5 : Byte).toNat := by decide

theorem witness_ShiftsSetLostBit :
    (0x80 : Nat) = ((legacyOn (giving [(2, 0x80)] State.reset)).getV
      (if (legacyOn (giving [(2, 0x80)] State.reset)).quirks.legacy = true then 2 else 1)).toNat ∧ (1 : Reg) ≠ vf := by
  decide

theorem witness_RandomIsMaskedSample :
    ({ State.reset with rngIn := [0xA7] } : State).rngIn = 0xA7 :: [] ∧ ({ State.reset with rngIn := [] } : State).rngIn = [] ∧
    (0x0F : Byte).getLsbD 4 = false := by decide

theorem witness_DecimalDigitsAreStored :
    ({ State.reset with i := 0xFFD } : State).i.toNat + 2 ≤ 0xFFF ∧
    0xFFF < ({ State.reset with i := 0xFFE } : State).i.toNat + 2 := by decide

theorem witness_BlockStore :
    ({ State.reset with i := 0xFF0 } : State).i.toNat + (15 : Reg).val ≤ 0xFFF ∧
    0xFFF < ({ State.reset with i := 0xFF1 } : State).i.toNat + (15 : Reg).val := by decide

theorem witness_BlockLoad :
    ({ State.reset with i := 0xFFF } : State).i.toNat + (0 : Reg).val ≤ 0xFFF ∧
    0xFFF < ({ State.reset with i := 0xFFF } : State).i.toNat + (1 : Reg).val := by decide

theorem witness_StoreThenLoadReturnsRegisters :
    ({ State.reset with i := 0xFF0 } : State).i.toNat + (15 : Reg).val ≤ 0xFFF := by decide

theorem witness_StoreIsSeenByFetch :
    ({ State.reset with i := 0x20A } : State).i.toNat + (1 : Reg).val ≤ 0xFFF ∧ (0 : Reg) < (1 : Reg) ∧
    (0x20A : Word).toNat = ({ State.reset with i := 0x20A } : State).i.toNat + (0 : Reg).val := by decide

/-- G16, G17, G18, G19 and G8: the boundary cases of R132. -/
theorem witness_DrawFrameAndFault :
    ¬ SpriteInRange 5 { State.reset with i := 0xFFC } ∧ SpriteInRange 4 { State.reset with i := 0xFFC } ∧
    ¬ SpriteInRange 0 { State.reset with i := 0xFE1, mode := .hires } ∧
    SpriteInRange 0 { State.reset with i := 0xFE0, mode := .hires } ∧ SpriteInRange 0 { State.reset with i := 0xFFFF } := by
  unfold SpriteInRange; decide

theorem witness_DrawTogglesSpritePixels :
    SpriteInRange 5 { State.reset with i := 0x050 } ∧ SpriteLit 5 { State.reset with i := 0x050 } 0 3 ∧
    Lands 1 2 { State.reset with i := 0x050 } 0 3 3 0 := by
  unfold SpriteInRange SpriteLit Lands; decide

theorem witness_DrawCountsCollisions :
    SpriteInRange 5 { State.reset with i := 0x050, mode := .hires } ∧
    RowCollides 1 2 5 (lighting [(3, 0)] { State.reset with i := 0x050, mode := .hires }) 0 ∧
    ¬ RowCollides 1 2 0 State.reset 0 := by
  refine ⟨by unfold SpriteInRange; decide, ⟨3, 3, 0, ?_⟩, ?_⟩
  · unfold SpriteLit Lands; decide
  · rintro ⟨c, lx, ly, -, -, -, -, -, h⟩
    have hb : ∀ x y, fbPixel State.reset.fb x y = false := fbPixel_blankFb
    rw [hb] at h
    cases h

theorem witness_DrawTwiceRestoresPicture : (1 : Reg) ≠ vf ∧ (2 : Reg) ≠ vf := by decide

theorem witness_KeySkips : (0xA : Nat) = ((giving [(5, 0x1A)] State.reset).getV 5).toNat % 16 := by decide

theorem witness_KeyWaitRetriesOrStores : State.reset.keys = 0 ∧ ({ State.reset with keys := 0x8000 } : State).keys ≠ 0 := by
  decide

theorem witness_WaitingStepStaysPut :
    (withProgram [0xF3, 0x0A]).run = .running ∧ (withProgram [0xF3, 0x0A]).pc.toNat ≤ 0xFFE ∧
    (withProgram [0xF3, 0x0A]).report = .none ∧ (withProgram [0xF3, 0x0A]).keys = 0 ∧
    decodeWord (fetchWord (withProgram [0xF3, 0x0A])) = .ok (.ldVxK 3) := by decide

theorem witness_TickAndPause :
    State.reset.run = .running ∧ ({ State.reset with run := .paused } : State).run = .paused ∧
    ({ State.reset with run := .stopped } : State).run = .stopped ∧
    ({ State.reset with run := .stopped } : State).run ≠ .running := by decide

theorem witness_StoppedIsAbsorbing :
    ({ State.reset with run := .stopped } : State).run = .stopped ∧
    ∀ inp, Event.reset inp ∉ [Event.step, Event.tick, Event.pauseToggle, Event.stop, Event.setKeys 1] :=
  ⟨rfl, by simp⟩

theorem witness_ResetEstablishesState : ({ rom := [0x6A, 0x05], initialHires := true, largeFont := some ⟨[0xFF], by decide⟩ } : ResetInputs).rom.length ≤ 3584 := by
  decide

/-- X5, X6. -/
theorem witness_TooLargeRomLeavesNoMachine :
    3584 < ({ rom := List.replicate 3585 0, initialHires := false, largeFont := none } : ResetInputs).rom.length ∧
    ({ rom := List.replicate 3584 0, initialHires := false, largeFont := none } : ResetInputs).rom.length = 3584 :=
  ⟨by rw [List.length_replicate]; decide, List.length_replicate⟩

theorem witness_StrictStepStopsAtReports :
    (∃ t, step ready = .next t ∧ t.report = .none) ∧ (∃ t, step State.reset = .next t ∧ t.report ≠ .none) ∧
    runEnd { ready with pc := 0xFFF } = some .fetchFault := ⟨⟨_, rfl, rfl⟩, ⟨_, rfl, by decide⟩, by decide⟩

end Sys2Proof.Tests
end

/-! One frame rule for each operation on the state: an operation that writes a piece named in a frame extends
the frame. A proof about an instruction's frame composes these rules in the order of the instruction's writes. -/

namespace Sys2Proof.Safety

open Sys2Proof.Machine

section
variable {P : List Part} {R : List Reg} {B : List Nat} {s t : State}

/-- Doing nothing stays in every frame. -/
theorem Frame.refl : Frame P R B s s where
  v _ _ := rfl
  mem _ _ := rfl
  i := .inr rfl
  pc := .inr rfl
  dt := .inr rfl
  st := .inr rfl
  stack := .inr rfl
  fb := .inr rfl
  mode := .inr rfl
  run := .inr rfl
  report := .inr rfl
  rng := .inr ⟨rfl, rfl⟩
  keys := rfl
  quirks := rfl

/-! ## Registers -/

theorem Frame.withV (h : Frame P R B s t) {v : Vector Byte 16} (hv : ∀ r, r ∉ R → v[r] = t.getV r) :
    Frame P R B s { t with v := v } :=
  { h with v := fun r hr => (hv r hr).trans (h.v r hr) }

theorem Frame.setV (h : Frame P R B s t) {r : Reg} (hr : r ∈ R) (b : Byte) : Frame P R B s (t.setV r b) :=
  h.withV fun q hq => by
    have hne : q ≠ r := fun e => hq (e ▸ hr)
    exact (getV_setV t r b q).trans (if_neg hne)

theorem Frame.vfResetAfter (h : Frame P R B s t) (hr : t.quirks.vfReset = true → vf ∈ R) :
    Frame P R B s (Machine.vfResetAfter t) := by
  unfold Machine.vfResetAfter
  split
  · exact h.setV (hr ‹_›) 0
  · exact h

/-! ## The other pieces of state -/

/-- `I` may also be written with the value it has: the block transfers do so outside legacy mode (R124, R125). -/
theorem Frame.setI (h : Frame P R B s t) {w : Word} (hw : Part.i ∈ P ∨ w = t.i) : Frame P R B s (t.setI w) :=
  { h with i := hw.elim .inl fun e => h.i.imp_right e.trans }

theorem Frame.setPc (h : Frame P R B s t) (hp : Part.pc ∈ P) (w : Word) : Frame P R B s (t.setPc w) :=
  { h with pc := .inl hp }

theorem Frame.skipIf (h : Frame P R B s t) (hp : Part.pc ∈ P) (c : Bool) : Frame P R B s (Machine.skipIf c t) := by
  cases c with
  | false => exact h
  | true => exact h.setPc hp _

theorem Frame.withDt (h : Frame P R B s t) (hp : Part.dt ∈ P) (b : Byte) : Frame P R B s { t with dt := b } :=
  { h with dt := .inl hp }

theorem Frame.withSt (h : Frame P R B s t) (hp : Part.st ∈ P) (b : Byte) : Frame P R B s { t with st := b } :=
  { h with st := .inl hp }

theorem Frame.withStack (h : Frame P R B s t) (hp : Part.stack ∈ P) (l : List Word) :
    Frame P R B s { t with stack := l } :=
  { h with stack := .inl hp }

theorem Frame.setFb (h : Frame P R B s t) (hp : Part.fb ∈ P) (fb : FrameBuffer) : Frame P R B s (t.setFb fb) :=
  { h with fb := .inl hp }

theorem Frame.withMode (h : Frame P R B s t) (hp : Part.mode ∈ P) (m : DisplayMode) :
    Frame P R B s { t with mode := m } :=
  { h with mode := .inl hp }

theorem Frame.withRun (h : Frame P R B s t) (hp : Part.run ∈ P) (r : RunState) : Frame P R B s { t with run := r } :=
  { h with run := .inl hp }

theorem Frame.withReport (h : Frame P R B s t) (hp : Part.report ∈ P) (r : Report) :
    Frame P R B s { t with report := r } :=
  { h with report := .inl hp }

theorem Frame.rngConsume (h : Frame P R B s t) (hp : Part.rng ∈ P) : Frame P R B s (Machine.rngConsume t) := by
  obtain ⟨l, n, e⟩ := rngConsume_eq t
  exact e ▸ { h with rng := .inl hp }

/-- A block write stays in a frame that names its addresses. -/
theorem Frame.writeBytes (h : Frame P R B s t) {base : Nat} {bs : List Byte}
    (hB : ∀ a, base ≤ a → a < base + bs.length → a ∈ B) : Frame P R B s (t.setMem (t.mem.writeBytes base bs)) :=
  { h with
    mem := fun a ha => by
      have hout : a < base ∨ base + bs.length ≤ a := by
        by_contra hin
        exact ha (hB a (by omega) (by omega))
      exact (read_writeBytes_of_not_mem bs t.mem base hout).trans (h.mem a ha) }

theorem Frame.drawInto (h : Frame P R B s t) (hp : Part.fb ∈ P) (hr : vf ∈ R) (sp : Sprite) :
    Frame P R B s (Machine.drawInto sp t) :=
  (h.setFb hp _).setV hr _

/-! ## Operations that can report -/

/-- A range check stays in a frame that names the report and that its effect stays in (R48). -/
theorem frame_of_guardRange {base len : Nat} {u : State} (hp : Part.report ∈ P)
    (h : guardRange base len s (.next u) = .next t) (hu : Frame P R B s u) : Frame P R B s t := by
  rcases guardRange_cases s base len (.next u) with ⟨-, e⟩ | ⟨-, e⟩
  · exact next_inj (e.symm.trans h) ▸ Frame.refl.withReport hp _
  · exact next_inj (e.symm.trans h) ▸ hu

theorem frame_of_callTo {depth : Option Nat} {target : Word} (hpc : Part.pc ∈ P) (hst : Part.stack ∈ P)
    (hp : Part.report ∈ P) (h : callTo depth target s = .next t) : Frame P R B s t := by
  rcases callTo_cases s depth target with ⟨-, e⟩ | ⟨-, e⟩
  · exact next_inj (e.symm.trans h) ▸ Frame.refl.withReport hp _
  · obtain rfl := next_inj (e.symm.trans h)
    exact (Frame.refl.withStack hst (s.pc :: s.stack)).setPc hpc target

theorem frame_of_returnFromCall (hpc : Part.pc ∈ P) (hst : Part.stack ∈ P) (hp : Part.report ∈ P)
    (h : returnFromCall s = .next t) : Frame P R B s t := by
  rcases returnFromCall_cases s with ⟨-, e⟩ | ⟨a, rest, -, e⟩
  · exact next_inj (e.symm.trans h) ▸ Frame.refl.withReport hp _
  · obtain rfl := next_inj (e.symm.trans h)
    exact (Frame.refl.withStack hst rest).setPc hpc a

end

end Sys2Proof.Safety

/-! The frame of every instruction: what `exec` may write, as three tables, and the one case analysis over all
instructions that shows it writes nothing else (spec/10_state.md section 1, R16). -/

namespace Sys2Proof.Safety

open Sys2Proof.Machine

/-- The pieces an instruction may write beside registers and memory: the column "written by" of 10_state.md section 1,
read by instruction, and the report of those that can raise one (R150). -/
@[simp] def writtenParts (q : Quirks) : Instr → List Part
  | .cls => [.fb]
  | .drw _ _ _ => [.fb, .report]
  | .ret | .call _ => [.pc, .stack, .report]
  | .exit => [.run]
  | .low | .high => [.mode]
  | .jp _ | .jpV0 _ _ | .ldVxK _ => [.pc]
  | .seImm _ _ | .sneImm _ _ | .seReg _ _ | .sneReg _ _ | .skp _ | .sknp _ => [.pc]
  | .rnd _ _ => [.rng]
  | .ldDtVx _ => [.dt]
  | .ldStVx _ => [.st]
  | .ldI _ | .addI _ | .ldF _ => [.i]
  | .storeRegs _ | .loadRegs _ => .report :: if q.legacy then [.i] else []
  | .ldB _ => [.report]
  | .ldImm _ _ | .addImm _ _ | .ldVxDt _ => []
  | .ldReg _ _ | .orReg _ _ | .andReg _ _ | .xorReg _ _ => []
  | .addReg _ _ | .subReg _ _ | .shr _ _ | .subn _ _ | .shl _ _ => []

/-- The registers a block load fills (R125). -/
def loadedRegs : Instr → List Reg
  | .loadRegs x => (List.finRange 16).filter (fun r => decide (r ≤ x))
  | _ => []

/-- The registers an instruction may write: its plain destination, those of a block load, and `VF` where R16 says so. -/
def writtenRegs (q : Quirks) (i : Instr) : List Reg :=
  (plainDest i).toList ++ loadedRegs i ++ if writesFlag q i then [vf] else []

/-- How many bytes an instruction stores, from the one at `I` up (R123, R124). -/
def storedLen : Instr → Nat
  | .ldB _ => 3
  | .storeRegs x => blockLen x
  | _ => 0

/-- The addresses an instruction may store to. -/
def writtenBytes (i : Instr) (s : State) : List Nat := (List.range (storedLen i)).map (indexBase s + ·)

theorem mem_loadedRegs {i : Instr} {r : Reg} : r ∈ loadedRegs i ↔ ∃ x, i = .loadRegs x ∧ r ≤ x := by
  unfold loadedRegs
  split
  · simp
  · rename_i hne
    simpa using fun x e => absurd e (hne x)

theorem mem_writtenRegs {q : Quirks} {i : Instr} {r : Reg} :
    r ∈ writtenRegs q i ↔
      plainDest i = some r ∨ (∃ x, i = .loadRegs x ∧ r ≤ x) ∨ (r = vf ∧ writesFlag q i = true) := by
  have hflag : r ∈ (if writesFlag q i then [vf] else []) ↔ r = vf ∧ writesFlag q i = true := by
    cases writesFlag q i <;> simp
  rw [writtenRegs, List.mem_append, List.mem_append, Option.mem_toList, mem_loadedRegs, hflag, or_assoc]

theorem dest_mem_writtenRegs {q : Quirks} {i : Instr} {r : Reg} (h : plainDest i = some r) : r ∈ writtenRegs q i :=
  mem_writtenRegs.2 (.inl h)

theorem vf_mem_writtenRegs {q : Quirks} {i : Instr} (h : writesFlag q i = true) : vf ∈ writtenRegs q i :=
  mem_writtenRegs.2 (.inr (.inr ⟨rfl, h⟩))

theorem mem_writtenBytes {i : Instr} {s : State} {a : Nat} (h : indexBase s ≤ a) (h' : a < indexBase s + storedLen i) :
    a ∈ writtenBytes i s :=
  List.mem_map.2 ⟨a - indexBase s, List.mem_range.2 (by omega), by omega⟩

/-- A block transfer writes `I` only in legacy mode (R124, R125). -/
theorem blockIndex_written {s : State} {i : Instr} (x : Reg) (hi : i = .storeRegs x ∨ i = .loadRegs x) :
    Part.i ∈ writtenParts s.quirks i ∨ blockIndex s x = s.i := by
  unfold blockIndex
  rcases hi with rfl | rfl <;> cases h : s.quirks.legacy <;> simp [h]

/-- The key wait either goes back to itself or stores a key (R143). -/
theorem execLdVxK_cases (x : Reg) (s : State) :
    (lowestKey s = none ∧ execLdVxK x s = .next (s.setPc (s.pc - 2))) ∨
    (∃ k, lowestKey s = some k ∧ execLdVxK x s = .next (s.setV x (BitVec.ofNat 8 k.val))) := by
  unfold execLdVxK
  cases lowestKey s with
  | none => exact .inl ⟨rfl, rfl⟩
  | some k => exact .inr ⟨k, rfl, rfl⟩

/-- No instruction writes outside its three tables. -/
theorem exec_frame {i : Instr} {s t : State} (h : exec i s = .next t) :
    Frame (writtenParts s.quirks i) (writtenRegs s.quirks i) (writtenBytes i s) s t := by
  cases i with
  | cls => exact next_inj h ▸ Frame.refl.setFb (by simp) _
  | exit => exact next_inj h ▸ Frame.refl.withRun (by simp) _
  | low | high => exact next_inj h ▸ Frame.refl.withMode (by simp) _
  | ret => exact frame_of_returnFromCall (by simp) (by simp) (by simp) h
  | call nnn => exact frame_of_callTo (by simp) (by simp) (by simp) h
  | jp | jpV0 => exact next_inj h ▸ Frame.refl.setPc (by simp) _
  | seImm | sneImm | seReg | sneReg | skp | sknp => exact next_inj h ▸ Frame.refl.skipIf (by simp) _
  | ldImm | addImm | ldReg | ldVxDt => exact next_inj h ▸ Frame.refl.setV (dest_mem_writtenRegs rfl) _
  | orReg | andReg | xorReg =>
    exact next_inj h ▸ (Frame.refl.setV (dest_mem_writtenRegs rfl) _).vfResetAfter fun hq => vf_mem_writtenRegs hq
  | addReg | subReg | subn =>
    exact next_inj h ▸ (Frame.refl.setV (vf_mem_writtenRegs rfl) _).setV (dest_mem_writtenRegs rfl) _
  | shr | shl => exact next_inj h ▸ (Frame.refl.setV (dest_mem_writtenRegs rfl) _).setV (vf_mem_writtenRegs rfl) _
  | rnd =>
    exact next_inj h ▸ (Frame.refl.rngConsume (by simp)).setV (dest_mem_writtenRegs rfl) _
  | drw =>
    exact frame_of_guardRange (by simp) h (Frame.refl.drawInto (by simp) (vf_mem_writtenRegs rfl) _)
  | ldVxK x =>
    rcases execLdVxK_cases x s with ⟨-, e⟩ | ⟨k, -, e⟩
    · exact next_inj (e.symm.trans h) ▸ Frame.refl.setPc (by simp) _
    · exact next_inj (e.symm.trans h) ▸ Frame.refl.setV (dest_mem_writtenRegs rfl) _
  | ldDtVx => exact next_inj h ▸ Frame.refl.withDt (by simp) _
  | ldStVx => exact next_inj h ▸ Frame.refl.withSt (by simp) _
  | ldI | addI | ldF => exact next_inj h ▸ Frame.refl.setI (.inl (by simp))
  | ldB =>
    exact frame_of_guardRange (by simp) h (Frame.refl.writeBytes fun _ ha ha' => mem_writtenBytes ha ha')
  | storeRegs x =>
    refine frame_of_guardRange (by simp) h (Frame.setI (Frame.refl.writeBytes ?_) ?_)
    · rw [blockRegs_length]
      exact fun _ ha ha' => mem_writtenBytes ha ha'
    · exact blockIndex_written x (.inl rfl)
  | loadRegs x =>
    refine frame_of_guardRange (by simp) h (Frame.setI (Frame.refl.withV ?_) ?_)
    · intro r hr
      have hgt : ¬ r ≤ x := fun hle => hr (mem_writtenRegs.2 (.inr (.inl ⟨x, rfl, hle⟩)))
      exact (blockLoaded_getElem s x _ r).trans (if_neg hgt)
    · exact blockIndex_written x (.inr rfl)

end Sys2Proof.Safety

/-! The machine invariant: kept by every instruction that runs after a fetch, hence by every step and every event
(spec/10_state.md R15, R18; spec/60_exceptions.md R157). -/

namespace Sys2Proof.Safety

open Sys2Proof.Machine

section
variable {s t : State}

/-! ## The invariant under the operations on the state -/

/-- The invariant speaks of memory, `PC` and the stack alone. -/
theorem Inv.congr (h : Inv s) (hm : t.mem = s.mem) (hp : t.pc = s.pc) (hst : t.stack = s.stack) : Inv t where
  mem := hm ▸ h.mem
  pc := hp ▸ h.pc
  depth := hst ▸ h.depth
  entries := hst ▸ h.entries

theorem Inv.setPc (h : Inv s) {w : Word} (hw : w.toNat ≤ 0x10FE) : Inv (s.setPc w) :=
  { h with pc := hw }

theorem Inv.writeBytes (h : Inv s) (a : Nat) (bs : List Byte) : Inv (s.setMem (s.mem.writeBytes a bs)) :=
  { h with mem := wf_writeBytes bs h.mem a }

theorem Inv.setV (h : Inv s) (r : Reg) (b : Byte) : Inv (s.setV r b) := h.congr rfl rfl rfl

theorem Inv.vfResetAfter (h : Inv s) : Inv (Machine.vfResetAfter s) := by
  unfold Machine.vfResetAfter
  split
  · exact h.setV vf 0
  · exact h

theorem Inv.rngConsume (h : Inv s) : Inv (Machine.rngConsume s) := by
  obtain ⟨l, n, e⟩ := rngConsume_eq s
  exact e ▸ h.congr rfl rfl rfl

theorem Inv.tick (h : Inv s) : Inv (tickEvent s) := by
  unfold tickEvent
  split
  · exact h.congr rfl rfl rfl
  · exact h
  · exact h

theorem Inv.pauseToggle (h : Inv s) : Inv (pauseToggleEvent s) := by
  unfold pauseToggleEvent
  split
  · exact h.congr rfl rfl rfl
  · exact h.congr rfl rfl rfl
  · exact h

/-- Advancing a `PC` of at most `0x1000` does not wrap. -/
theorem toNat_add_two {w : Word} (h : w.toNat ≤ 0x1000) : (w + 2).toNat = w.toNat + 2 := by bv_omega

/-- A skip after a fetch stays below `0x1003` (R15). -/
theorem Inv.skipIf (h : Inv s) (hle : s.pc.toNat ≤ 0x1000) (c : Bool) : Inv (Machine.skipIf c s) := by
  cases c with
  | false => exact h
  | true => exact h.setPc (by rw [toNat_add_two hle]; omega)

/-- A range check keeps the invariant if its effect does: a report changes none of the pieces it speaks of. -/
theorem Inv.guardRange {base len : Nat} {u : State} (hs : Inv s)
    (h : Machine.guardRange base len s (.next u) = .next t) (hu : Inv u) : Inv t := by
  rcases guardRange_cases s base len (.next u) with ⟨-, e⟩ | ⟨-, e⟩
  · exact next_inj (e.symm.trans h) ▸ hs.congr rfl rfl rfl
  · exact next_inj (e.symm.trans h) ▸ hu

/-- A call pushes a `PC` of at most `0x1000`, and onto a stack that is not full (R18, R92). -/
theorem Inv.callTo (hs : Inv s) (hle : s.pc.toNat ≤ 0x1000) {target : Word} (ht : target.toNat ≤ 0x10FE)
    (h : Machine.callTo Config.stackDepth target s = .next t) : Inv t := by
  rcases callTo_cases s Config.stackDepth target with ⟨-, e⟩ | ⟨hfull, e⟩
  · exact next_inj (e.symm.trans h) ▸ hs.congr rfl rfl rfl
  · obtain rfl := next_inj (e.symm.trans h)
    have hroom : ¬ 16 ≤ s.stack.length := fun hge => by simp [(stackFull_hardware s.stack).2 hge] at hfull
    have hlen : s.stack.length + 1 ≤ 16 := by omega
    exact ⟨hs.mem, ht, hlen, List.forall_mem_cons.2 ⟨hle, hs.entries⟩⟩

/-- A return goes to an entry of the stack (R15, R90). -/
theorem Inv.returnFromCall (hs : Inv s) (h : Machine.returnFromCall s = .next t) : Inv t := by
  rcases returnFromCall_cases s with ⟨-, e⟩ | ⟨a, rest, hstack, e⟩
  · exact next_inj (e.symm.trans h) ▸ hs.congr rfl rfl rfl
  · obtain rfl := next_inj (e.symm.trans h)
    obtain ⟨ha, hrest⟩ := List.forall_mem_cons.1 (hstack ▸ hs.entries)
    have hdepth : (a :: rest).length ≤ 16 := hstack ▸ hs.depth
    exact ⟨hs.mem, Nat.le_trans ha (by decide), Nat.le_trans (Nat.le_succ _) hdepth, hrest⟩

/-! ## Jump targets -/

theorem addrOperand_le (nnn : Addr12) : (addrOperand nnn).toNat ≤ 0xFFF := by
  have := nnn.isLt
  simp only [addrOperand, BitVec.toNat_setWidth]
  omega

/-- The farthest target of `Bnnn` is `0xFFF + 0xFF`, the bound of R15 (R97). -/
theorem jpV0_target_le (x : Reg) (nnn : Addr12) : (addrOperand nnn + wideReg s x).toNat ≤ 0x10FE := by
  have hn := addrOperand_le nnn
  have hx := (s.getV x).isLt
  simp only [BitVec.toNat_add, wideReg, BitVec.toNat_setWidth]
  omega

/-! ## Instructions, steps, events -/

/-- An instruction keeps the invariant where `PC` has just been advanced: the key wait takes 2 from it, a call pushes it
and a skip adds 2 to it. -/
theorem exec_keeps_inv {i : Instr} (hs : Inv s) (hge : 2 ≤ s.pc.toNat) (hle : s.pc.toNat ≤ 0x1000)
    (h : exec i s = .next t) : Inv t := by
  cases i with
  | cls | exit | low | high | ldDtVx | ldStVx | ldI | addI | ldF => exact next_inj h ▸ hs.congr rfl rfl rfl
  | ldImm | addImm | ldReg | ldVxDt | addReg | subReg | shr | subn | shl => exact next_inj h ▸ hs.congr rfl rfl rfl
  | orReg | andReg | xorReg => exact next_inj h ▸ (hs.setV _ _).vfResetAfter
  | rnd => exact next_inj h ▸ hs.rngConsume.setV _ _
  | ret => exact hs.returnFromCall h
  | call nnn => exact hs.callTo hle (Nat.le_trans (addrOperand_le nnn) (by decide)) h
  | jp nnn => exact next_inj h ▸ hs.setPc (Nat.le_trans (addrOperand_le nnn) (by decide))
  | jpV0 x nnn => exact next_inj h ▸ hs.setPc (jpV0_target_le _ nnn)
  | seImm | sneImm | seReg | sneReg | skp | sknp => exact next_inj h ▸ hs.skipIf hle _
  | drw => exact hs.guardRange h (hs.congr rfl rfl rfl)
  | ldVxK x =>
    rcases execLdVxK_cases x s with ⟨-, e⟩ | ⟨k, -, e⟩
    · exact next_inj (e.symm.trans h) ▸ hs.setPc (by bv_omega)
    · exact next_inj (e.symm.trans h) ▸ hs.congr rfl rfl rfl
  | ldB => exact hs.guardRange h (hs.writeBytes _ _)
  | storeRegs => exact hs.guardRange h ((hs.writeBytes _ _).congr rfl rfl rfl)
  | loadRegs => exact hs.guardRange h (hs.congr rfl rfl rfl)

/-- The fetch-advance keeps the invariant and leaves `PC` where an instruction keeps it too. -/
theorem fetchAdvance_inv (hs : Inv s) (hf : fetchFaults s = false) :
    Inv (fetchAdvance s) ∧ 2 ≤ (fetchAdvance s).pc.toNat ∧ (fetchAdvance s).pc.toNat ≤ 0x1000 := by
  have hpc := (fetchFaults_eq_false s).1 hf
  have hadv : (fetchAdvance s).pc.toNat = s.pc.toNat + 2 := toNat_add_two (by omega)
  exact ⟨⟨hs.mem, by omega, hs.depth, hs.entries⟩, by omega, by omega⟩

theorem step_keeps_inv (hs : Inv s) (h : step s = .next t) : Inv t := by
  rcases step_cases s with ⟨-, e⟩ | ⟨-, -, e⟩ | ⟨-, hf, -, e⟩ | ⟨i, -, hf, -, e⟩
  · exact next_inj (e.symm.trans h) ▸ hs.congr rfl rfl rfl
  · exact next_inj (e.symm.trans h) ▸ hs.congr rfl rfl rfl
  · exact next_inj (e.symm.trans h) ▸ (fetchAdvance_inv hs hf).1.congr rfl rfl rfl
  · obtain ⟨hadv, hge, hle⟩ := fetchAdvance_inv hs hf
    exact exec_keeps_inv hadv hge hle (e.symm.trans h)

theorem reset_inv : Inv State.reset := ⟨wf_reset, by decide, by decide, fun _ ha => nomatch ha⟩

/-- A reset with a ROM of legal length has a next state (R180). -/
theorem resetEvent_of_legal {inp : ResetInputs} (h : inp.rom.length ≤ Config.romMax) (s : State) :
    resetEvent inp s = .next { State.reset with
      mem := resetMemory inp
      mode := initialMode inp.initialHires
      keys := s.keys
      quirks := s.quirks
      rngIn := s.rngIn
      rngDraws := s.rngDraws } :=
  if_neg (Nat.not_lt.2 h)

theorem wf_resetMemory (inp : ResetInputs) : (resetMemory inp).wf = true :=
  wf_writeBytes _ (wf_writeBytes _ (wf_writeBytes _ wf_reset _) _) _

/-- Whatever the state before, a reset that succeeds leaves the invariant (R34, R180). -/
theorem resetEvent_inv {inp : ResetInputs} (h : resetEvent inp s = .next t) : Inv t := by
  by_cases hl : inp.rom.length ≤ Config.romMax
  · obtain rfl := next_inj ((resetEvent_of_legal hl s).symm.trans h)
    exact { reset_inv with mem := wf_resetMemory inp }
  · rw [resetEvent, if_pos (Nat.lt_of_not_le hl)] at h
    cases h

theorem applyEvent_keeps_inv {e : Event} (hs : Inv s) (h : applyEvent e s = .next t) : Inv t := by
  cases e with
  | reset inp => exact resetEvent_inv h
  | step => exact step_keeps_inv hs h
  | tick => exact next_inj h ▸ hs.tick
  | pauseToggle => exact next_inj h ▸ hs.pauseToggle
  | stop | setKeys | setQuirks | supplyRandom => exact next_inj h ▸ hs.congr rfl rfl rfl

end

/-- Settles O14: a step is nothing, a report, or an instruction after the fetch-advance. -/
theorem stepKeepsInvariant : Obligations.StepKeepsInvariant :=
  fun _ _ hs h => step_keeps_inv hs h

/-- Settles O15. -/
theorem resetHasInvariant : Obligations.ResetHasInvariant := reset_inv

/-- Settles O16, by induction on the events. -/
theorem eventsKeepInvariant : Obligations.EventsKeepInvariant := by
  intro es
  induction es with
  | nil => exact fun s t hs h => next_inj h ▸ hs
  | cons e es ih =>
    intro s t hs h
    unfold applyEvents at h
    split at h
    · exact ih _ t (applyEvent_keeps_inv hs ‹_›) h
    · cases h
    · cases h

end Sys2Proof.Safety

/-! Who writes what: the column "written by" of the table of spec/10_state.md section 1, read off the frame of every
instruction. -/

namespace Sys2Proof.Safety

open Sys2Proof.Machine

section
variable {q : Quirks} {i : Instr}

/-! ## The tables of the frame, piece by piece -/

theorem writers_of_regs {r : Reg} (h : r ∈ writtenRegs q i) :
    (∃ x nn, i = .ldImm x nn ∨ i = .addImm x nn ∨ i = .rnd x nn) ∨
    (∃ x y, i = .ldReg x y ∨ i = .orReg x y ∨ i = .andReg x y ∨ i = .xorReg x y ∨ i = .addReg x y ∨
      i = .subReg x y ∨ i = .shr x y ∨ i = .subn x y ∨ i = .shl x y) ∨
    (∃ x y n, i = .drw x y n) ∨ ∃ x, i = .ldVxDt x ∨ i = .ldVxK x ∨ i = .loadRegs x := by
  rcases mem_writtenRegs.1 h with hd | ⟨x, rfl, -⟩ | ⟨-, hf⟩
  · cases i <;> simp [plainDest] at hd ⊢
  · simp
  · cases i <;> simp [writesFlag] at hf ⊢

theorem writers_of_bytes {s : State} {a : Nat} (h : a ∈ writtenBytes i s) : ∃ x, i = .ldB x ∨ i = .storeRegs x := by
  cases i <;> simp [writtenBytes, storedLen] at h ⊢

theorem writers_of_fb (h : Part.fb ∈ writtenParts q i) : i = .cls ∨ ∃ x y n, i = .drw x y n := by
  cases i <;> simp at h ⊢

theorem writers_of_stack (h : Part.stack ∈ writtenParts q i) : i = .ret ∨ ∃ nnn, i = .call nnn := by
  cases i <;> simp at h ⊢

theorem writers_of_mode (h : Part.mode ∈ writtenParts q i) : i = .low ∨ i = .high := by
  cases i <;> simp at h ⊢

theorem writers_of_run (h : Part.run ∈ writtenParts q i) : i = .exit := by
  cases i <;> simp at h ⊢

theorem writers_of_dt (h : Part.dt ∈ writtenParts q i) : ∃ x, i = .ldDtVx x := by
  cases i <;> simp at h ⊢

theorem writers_of_st (h : Part.st ∈ writtenParts q i) : ∃ x, i = .ldStVx x := by
  cases i <;> simp at h ⊢

theorem writers_of_i (h : Part.i ∈ writtenParts q i) :
    (∃ nnn, i = .ldI nnn) ∨
      ∃ x, i = .addI x ∨ i = .ldF x ∨ (q.legacy = true ∧ (i = .storeRegs x ∨ i = .loadRegs x)) := by
  cases i <;> simp at h ⊢ <;> exact h

theorem writers_of_pc (h : Part.pc ∈ writtenParts q i) :
    i = .ret ∨ (∃ nnn, i = .jp nnn ∨ i = .call nnn) ∨ (∃ x nnn, i = .jpV0 x nnn) ∨
      (∃ x nn, i = .seImm x nn ∨ i = .sneImm x nn) ∨ (∃ x y, i = .seReg x y ∨ i = .sneReg x y) ∨
      ∃ x, i = .skp x ∨ i = .sknp x ∨ i = .ldVxK x := by
  cases i <;> simp at h ⊢

end

/-- A register that an instruction changes is one it may write. -/
theorem mem_writtenRegs_of_changed {i : Instr} {s t : State} (h : exec i s = .next t) {r : Reg}
    (hne : t.getV r ≠ s.getV r) : r ∈ writtenRegs s.quirks i :=
  by_contra fun hr => hne ((exec_frame h).v r hr)

/-- Settles O17: what changes is in the instruction's frame, and the frame's tables name the writers. -/
theorem onlyListedInstructionsWrite : Obligations.OnlyListedInstructionsWrite := by
  intro i s t h
  have hf := exec_frame h
  refine ⟨fun hv => ?_, fun ⟨a, ha⟩ => writers_of_bytes (by_contra fun hb => ha (hf.mem a hb)),
    fun hne => writers_of_fb (hf.fb.resolve_right hne), fun hne => writers_of_stack (hf.stack.resolve_right hne),
    fun hne => writers_of_mode (hf.mode.resolve_right hne), fun hne => writers_of_run (hf.run.resolve_right hne),
    fun hne => writers_of_dt (hf.dt.resolve_right hne), fun hne => writers_of_st (hf.st.resolve_right hne),
    fun hne => writers_of_i (hf.i.resolve_right hne), fun hne => writers_of_pc (hf.pc.resolve_right hne),
    hf.keys, hf.quirks⟩
  obtain ⟨r, hr⟩ : ∃ r, t.getV r ≠ s.getV r := by
    by_contra hall
    exact hv (v_eq_of_getV fun r => by_contra fun hr => hall ⟨r, hr⟩)
  exact writers_of_regs (mem_writtenRegs_of_changed h hr)

/-- Settles O18. -/
theorem onlyNamedRegistersChange : Obligations.OnlyNamedRegistersChange :=
  fun _ _ _ _ h hne => mem_writtenRegs.1 (mem_writtenRegs_of_changed h hne)

end Sys2Proof.Safety

/-! What no instruction depends on: one comparison of `exec` on a state and on the same state with another picture,
another sound timer and other quirks, where the quirks agree on those the instruction reads (spec/10_state.md R17, R20,
R27). -/

namespace Sys2Proof.Safety

open Sys2Proof.Machine

/-- The state with another picture, another sound timer and other quirks. -/
def withAmbient (s : State) (fb : FrameBuffer) (b : Byte) (q : Quirks) : State :=
  { s with fb := fb, st := b, quirks := q }

/-- Two quirk settings agree on the quirks that R27 names for an instruction. -/
structure QuirksAgree (i : Instr) (q q' : Quirks) : Prop where
  vfReset : (quirksRead i).vfReset = true → q'.vfReset = q.vfReset
  clipping : (quirksRead i).clipping = true → q'.clipping = q.clipping
  jumping : (quirksRead i).jumping = true → q'.jumping = q.jumping
  legacy : (quirksRead i).legacy = true → q'.legacy = q.legacy

theorem QuirksAgree.refl (i : Instr) (q : Quirks) : QuirksAgree i q q :=
  ⟨fun _ => rfl, fun _ => rfl, fun _ => rfl, fun _ => rfl⟩

section
variable {s t : State} {fb : FrameBuffer} {b : Byte} {q : Quirks}

/-! ## The shared operations -/

theorem skipIf_withAmbient (c : Bool) : skipIf c (withAmbient s fb b q) = withAmbient (skipIf c s) fb b q := by
  cases c <;> rfl

theorem rngConsume_withAmbient : rngConsume (withAmbient s fb b q) = withAmbient (rngConsume s) fb b q := by
  unfold rngConsume
  cases h : s.rngIn <;> simp only [withAmbient, h]

theorem vfResetAfter_withAmbient (hq : q.vfReset = s.quirks.vfReset) :
    vfResetAfter (withAmbient s fb b q) = withAmbient (vfResetAfter s) fb b q := by
  unfold vfResetAfter
  cases h : s.quirks.vfReset <;> simp only [withAmbient, hq, h] <;> rfl

theorem guardRange_withAmbient {base len : Nat} {u : State} (h : guardRange base len s (.next u) = .next t) :
    guardRange base len (withAmbient s fb b q) (.next (withAmbient u fb b q)) = .next (withAmbient t fb b q) := by
  rcases guardRange_cases s base len (.next u) with ⟨hf, e⟩ | ⟨hf, e⟩
  · exact next_inj (e.symm.trans h) ▸ guardRange_of_fault _ hf _
  · exact next_inj (e.symm.trans h) ▸ guardRange_of_ok _ hf _

theorem callTo_withAmbient {depth : Option Nat} {target : Word} (h : callTo depth target s = .next t) :
    callTo depth target (withAmbient s fb b q) = .next (withAmbient t fb b q) := by
  rcases callTo_cases s depth target with ⟨hf, e⟩ | ⟨hf, e⟩
  · exact next_inj (e.symm.trans h) ▸ if_pos hf
  · exact next_inj (e.symm.trans h) ▸ if_neg (Bool.eq_false_iff.1 hf)

theorem returnFromCall_withAmbient (h : returnFromCall s = .next t) :
    returnFromCall (withAmbient s fb b q) = .next (withAmbient t fb b q) := by
  unfold returnFromCall at h ⊢
  cases hs : s.stack <;> simp only [withAmbient, hs, raise_eq] at h ⊢ <;> exact next_inj h ▸ rfl

theorem execLdVxK_withAmbient {x : Reg} (h : execLdVxK x s = .next t) :
    execLdVxK x (withAmbient s fb b q) = .next (withAmbient t fb b q) := by
  have hkey : lowestKey (withAmbient s fb b q) = lowestKey s := rfl
  unfold execLdVxK at h ⊢
  rw [hkey]
  cases hs : lowestKey s <;> simp only [hs] at h ⊢ <;> exact next_inj h ▸ rfl

/-! ## The operands that depend on a quirk -/

theorem shiftSource_withAmbient (hq : q.legacy = s.quirks.legacy) (x y : Reg) :
    shiftSource (withAmbient s fb b q) x y = shiftSource s x y :=
  congrArg (fun l : Bool => if l then s.getV y else s.getV x) hq

theorem jumpReg_withAmbient (hq : q.jumping = s.quirks.jumping) (x : Reg) :
    jumpReg (withAmbient s fb b q) x = jumpReg s x :=
  congrArg (fun j : Bool => if j then x else 0) hq

theorem blockIndex_withAmbient (hq : q.legacy = s.quirks.legacy) (x : Reg) :
    blockIndex (withAmbient s fb b q) x = blockIndex s x :=
  congrArg (fun l : Bool => if l then s.i + BitVec.ofNat 16 (blockLen x) else s.i) hq

theorem spriteOf_withAmbient (hq : q.clipping = s.quirks.clipping) (x y : Reg) (n : Fin 16) :
    spriteOf x y n (withAmbient s fb b q) = spriteOf x y n s :=
  congrArg (fun c : Bool => { spriteOf x y n s with clip := c }) hq

/-! ## Every instruction -/

/-- An instruction that writes neither the picture nor the sound timer does the same under another picture, sound timer
and quirks, and leaves these as they are. -/
theorem exec_withAmbient_of_not_written {i : Instr} (hq : QuirksAgree i s.quirks q)
    (hfb : Part.fb ∉ writtenParts s.quirks i) (hst : Part.st ∉ writtenParts s.quirks i) (h : exec i s = .next t) :
    exec i (withAmbient s fb b q) = .next (withAmbient t fb b q) := by
  cases i with
  | cls | drw => exact absurd (by simp) hfb
  | ldStVx => exact absurd (by simp) hst
  | exit | low | high | jp | ldI | addI | ldF | ldDtVx => exact next_inj h ▸ rfl
  | ldImm | addImm | ldReg | ldVxDt | addReg | subReg | subn => exact next_inj h ▸ rfl
  | ret => exact returnFromCall_withAmbient h
  | call => exact callTo_withAmbient h
  | seImm | sneImm | seReg | sneReg | skp | sknp =>
    exact next_inj h ▸ congrArg Host.Outcome.next (skipIf_withAmbient _)
  | orReg | andReg | xorReg =>
    exact next_inj h ▸ congrArg Host.Outcome.next (vfResetAfter_withAmbient (s := s.setV _ _) (hq.vfReset rfl))
  | shr x y =>
    change execShr x y _ = _
    rw [execShr, shiftSource_withAmbient (hq.legacy rfl)]
    exact next_inj h ▸ rfl
  | shl x y =>
    change execShl x y _ = _
    rw [execShl, shiftSource_withAmbient (hq.legacy rfl)]
    exact next_inj h ▸ rfl
  | jpV0 x nnn =>
    change execJpV0 x nnn _ = _
    rw [execJpV0, jumpReg_withAmbient (hq.jumping rfl)]
    exact next_inj h ▸ rfl
  | rnd x nn =>
    change execRnd x nn _ = _
    rw [execRnd, rngConsume_withAmbient]
    exact next_inj h ▸ rfl
  | ldVxK => exact execLdVxK_withAmbient h
  | ldB => exact guardRange_withAmbient h
  | storeRegs x =>
    change execStoreRegs x _ = _
    rw [execStoreRegs, blockIndex_withAmbient (hq.legacy rfl)]
    exact guardRange_withAmbient h
  | loadRegs x =>
    change execLoadRegs x _ = _
    rw [execLoadRegs, blockIndex_withAmbient (hq.legacy rfl)]
    exact guardRange_withAmbient h

/-- Under another picture a draw changes the same pieces: the picture and `VF` alone may come out differently (R20). -/
theorem execDrw_withAmbient {x y : Reg} {n : Fin 16} (hq : q.clipping = s.quirks.clipping)
    (h : execDrw x y n s = .next t) : ∃ v fb',
      execDrw x y n (withAmbient s fb b q) = .next (withAmbient { t with v := v } fb' b q) ∧
      (fb = s.fb → v = t.v ∧ fb' = t.fb) ∧ ∀ r, r ≠ vf → v[r] = t.getV r := by
  have hsp := spriteOf_withAmbient (fb := fb) (b := b) hq x y n
  have hdrw : execDrw x y n (withAmbient s fb b q) =
      guardRange (indexBase s) (spriteLen (spriteOf x y n s)) (withAmbient s fb b q)
        (.next (drawInto (spriteOf x y n s) (withAmbient s fb b q))) := by
    rw [execDrw, hsp]
    rfl
  rcases execDrw_cases x y n s with ⟨hf, e⟩ | ⟨hf, e⟩
  · obtain rfl := next_inj (e.symm.trans h)
    exact ⟨s.v, fb, hdrw.trans (guardRange_of_fault _ hf _), fun e => ⟨rfl, e⟩, fun r _ => rfl⟩
  · obtain rfl := next_inj (e.symm.trans h)
    refine ⟨_, _, hdrw.trans (guardRange_of_ok _ hf _), ?_, ?_⟩
    · rintro rfl
      exact ⟨rfl, rfl⟩
    · intro r hr
      exact ((drawInto_getV _ (withAmbient s fb b q) r).trans (if_neg hr)).trans
        ((drawInto_getV _ s r).trans (if_neg hr)).symm

/-- Every instruction under another picture, sound timer and quirks: the quirks stay, `VF` of a draw and the picture
depend on the picture alone, the sound timer on itself alone, and nothing else on any of them. -/
theorem exec_withAmbient {i : Instr} (hq : QuirksAgree i s.quirks q) (h : exec i s = .next t) : ∃ v fb' b',
    exec i (withAmbient s fb b q) = .next (withAmbient { t with v := v } fb' b' q) ∧
    (fb = s.fb → v = t.v ∧ fb' = t.fb) ∧ (b = s.st → b' = t.st) ∧
    ∀ r, ((∀ x y n, i ≠ .drw x y n) ∨ r ≠ vf) → v[r] = t.getV r := by
  have hframe := exec_frame h
  by_cases hfb : Part.fb ∈ writtenParts s.quirks i
  · rcases writers_of_fb hfb with rfl | ⟨x, y, n, rfl⟩
    · obtain rfl := next_inj h
      exact ⟨s.v, blankFb, b, rfl, fun _ => ⟨rfl, rfl⟩, id, fun _ _ => rfl⟩
    · obtain ⟨v, fb', hexec, hsame, hv⟩ := execDrw_withAmbient (fb := fb) (b := b) (hq.clipping rfl) h
      have hst : t.st = s.st := hframe.st.resolve_left (by simp)
      exact ⟨v, fb', b, hexec, hsame, fun e => e.trans hst.symm,
        fun r hr => hv r (hr.resolve_left fun hne => hne x y n rfl)⟩
  · have hfb' : t.fb = s.fb := hframe.fb.resolve_left hfb
    by_cases hst : Part.st ∈ writtenParts s.quirks i
    · obtain ⟨x, rfl⟩ := writers_of_st hst
      obtain rfl := next_inj h
      exact ⟨s.v, fb, s.getV x, rfl, fun e => ⟨rfl, e⟩, fun _ => rfl, fun _ _ => rfl⟩
    · have hst' : t.st = s.st := hframe.st.resolve_left hst
      exact ⟨t.v, fb, b, exec_withAmbient_of_not_written hq hfb hst h, fun e => ⟨rfl, e.trans hfb'.symm⟩,
        fun e => e.trans hst'.symm, fun _ _ => rfl⟩

end

/-- Settles O19: the comparison with the picture and the sound timer left as they are. -/
theorem quirksAffectOnlyTheirInstructions : Obligations.QuirksAffectOnlyTheirInstructions := by
  intro i s t q hvf hclip hjump hleg h
  obtain ⟨v, fb', b', hexec, hsame, hst, -⟩ :=
    exec_withAmbient (fb := s.fb) (b := s.st) (q := q) ⟨hvf, hclip, hjump, hleg⟩ h
  obtain ⟨rfl, rfl⟩ := hsame rfl
  obtain rfl := hst rfl
  exact hexec

/-- Settles O20: the comparison with the quirks left as they are, and for the sound timer alone also the picture. -/
theorem displayAndToneAreWriteOnly : Obligations.DisplayAndToneAreWriteOnly := by
  intro i s t b h
  have hquirks : s.quirks = t.quirks := (exec_frame h).quirks.symm
  constructor
  · intro u fb hu
    obtain ⟨v, fb', b', hexec, -, -, hv⟩ := exec_withAmbient (fb := fb) (b := b) (QuirksAgree.refl i s.quirks) h
    obtain rfl := next_inj (hexec.symm.trans hu)
    exact ⟨hv, by rw [hquirks]; rfl⟩
  · intro u hu
    obtain ⟨v, fb', b', hexec, hsame, -, -⟩ :=
      exec_withAmbient (fb := s.fb) (b := b) (QuirksAgree.refl i s.quirks) h
    obtain ⟨rfl, rfl⟩ := hsame rfl
    obtain rfl := next_inj (hexec.symm.trans hu)
    rw [hquirks]
    rfl

end Sys2Proof.Safety

/-! The state that the reset event leaves, memory region by region, and the outputs as functions of the state
(spec/10_state.md R31, R32, R34). -/

namespace Sys2Proof.Safety

open Sys2Proof.Machine

/-! ## The memory image of a reset (R34, R41, R181) -/

/-- Padding with zeros does not change what a list reads as where 0 stands for its missing bytes. -/
theorem getD_append_zeros (l : List Byte) (n k : Nat) : (l ++ List.replicate n 0).getD k 0 = l.getD k 0 := by
  by_cases hk : k < l.length
  · exact List.getD_append _ _ _ _ hk
  · rw [List.getD_append_right _ _ _ _ (Nat.le_of_not_lt hk), List.getD_eq_getElem?_getD,
      List.getElem?_getD_replicate_default_eq, List.getD_eq_default _ _ (Nat.le_of_not_lt hk)]

/-- A given large font and the zeros after it end where the program region begins. -/
theorem fontLargeImage_some_length (f : { l : List Byte // l.length ≤ Config.fontLargeMax }) :
    (fontLargeImage (some f)).length = 352 := by
  rw [fontLargeImage, List.length_append, List.length_replicate]
  exact Nat.add_sub_cancel' f.property

theorem fontLargeImage_length_le (f : Option { l : List Byte // l.length ≤ Config.fontLargeMax }) :
    (fontLargeImage f).length ≤ 352 := by
  cases f with
  | none => exact Nat.zero_le _
  | some f => exact (fontLargeImage_some_length f).le

/-- Below the program region the ROM changes nothing. -/
theorem read_resetMemory_of_lt (inp : ResetInputs) {a : Nat} (ha : a < 0x200) :
    (resetMemory inp).read a =
      (((⟨[]⟩ : Memory).writeBytes 0x050 inp.smallFont.val).writeBytes 0x0A0 (fontLargeImage inp.largeFont)).read a :=
  read_writeBytes_of_not_mem _ _ _ (.inl ha)

/-- The ROM, and 0 in the bytes it leaves. -/
theorem read_resetMemory_program {inp : ResetInputs} (hrom : inp.rom.length ≤ 3584) (k : Nat) :
    (resetMemory inp).read (0x200 + k) = inp.rom.getD k 0 := by
  have hsmall := inp.smallFont.property
  have hlarge := fontLargeImage_length_le inp.largeFont
  by_cases hk : k < inp.rom.length
  · rw [resetMemory, read_writeBytes _ _ _ (by simp only [Config.progBase, Config.maxAddr]; omega),
      if_pos (by simp only [Config.progBase]; omega), Config.progBase, Nat.add_sub_cancel_left]
  · rw [resetMemory, read_writeBytes_of_not_mem _ _ _ (.inr (by simp only [Config.progBase]; omega)),
      read_writeBytes_of_not_mem _ _ _ (.inr (by simp only [Config.fontLargeBase]; omega)),
      read_writeBytes_of_not_mem _ _ _ (.inr (by simp only [Config.fontBase]; omega)),
      List.getD_eq_default _ _ (Nat.le_of_not_lt hk)]
    exact unlistedByte_of_known (resetByte_program (Nat.le_add_right _ _))

/-- A given large font, and 0 in the bytes of its region that it leaves. -/
theorem read_resetMemory_fontLarge {inp : ResetInputs} {f : { l : List Byte // l.length ≤ Config.fontLargeMax }}
    (hf : inp.largeFont = some f) {k : Nat} (hk : k < 352) :
    (resetMemory inp).read (0x0A0 + k) = f.val.getD k 0 := by
  rw [read_resetMemory_of_lt inp (by omega), hf, read_writeBytes _ _ _ (by rw [fontLargeImage_some_length]; decide),
    if_pos (by rw [fontLargeImage_some_length]; omega), Nat.add_sub_cancel_left, fontLargeImage, getD_append_zeros]

theorem read_resetMemory_fontSmall (inp : ResetInputs) {k : Nat} (hk : k < 80) :
    (resetMemory inp).read (0x050 + k) = inp.smallFont.val.getD k 0 := by
  have hsmall := inp.smallFont.property
  rw [read_resetMemory_of_lt inp (by omega), read_writeBytes_of_not_mem _ _ _ (.inl (by omega)),
    read_writeBytes _ _ _ (by rw [hsmall]; decide), if_pos (by omega), Nat.add_sub_cancel_left]

theorem read_resetMemory_low (inp : ResetInputs) {a : Nat} (ha : a < 0x050) : (resetMemory inp).read a = 0 := by
  rw [read_resetMemory_of_lt inp (by omega), read_writeBytes_of_not_mem _ _ _ (.inl (by omega)),
    read_writeBytes_of_not_mem _ _ _ (.inl ha)]
  exact unlistedByte_of_known (resetByte_low ha)

theorem getV_of_replicate {s : State} (h : s.v = Vector.replicate 16 0) (r : Reg) : s.getV r = 0 := by
  rw [State.getV, h]
  exact Vector.getElem_replicate _

/-- Settles O54: the fields are those of the reset event, and the regions of its memory image are disjoint. -/
theorem resetEstablishesState : Obligations.ResetEstablishesState := by
  intro inp s hrom
  refine ⟨_, resetEvent_of_legal hrom s, getV_of_replicate rfl, rfl, rfl, rfl, rfl, rfl, fbPixel_blankFb, rfl, rfl, rfl,
    fun k hk => read_resetMemory_fontSmall inp hk, fun f hf k hk => read_resetMemory_fontLarge hf hk,
    fun k _ => read_resetMemory_program hrom k, fun a ha => read_resetMemory_low inp ha⟩

/-! ## Outputs -/

/-- On the logical grid the display shows the logical pixel (R31). -/
theorem pixelAt_of_lt {s : State} {x y : Nat} (hx : x < dispW s) (hy : y < dispH s) :
    pixelAt s x y = some (logicalHit s.mode s.fb x y) :=
  if_pos ⟨hx, hy⟩

/-- Settles O24, mode by mode. -/
theorem outputsShowState : Obligations.OutputsShowState := by
  intro s
  refine ⟨fun hm => ?_, fun hm => ?_, decide_eq_true_iff⟩
  · have hw : dispW s = 128 := congrArg gridWidth hm
    have hh : dispH s = 64 := congrArg gridHeight hm
    refine ⟨hw, hh, fun x y hx hy => ?_⟩
    rw [pixelAt_of_lt (hw ▸ hx) (hh ▸ hy), hm]
    rfl
  · have hw : dispW s = 64 := congrArg gridWidth hm
    have hh : dispH s = 32 := congrArg gridHeight hm
    refine ⟨hw, hh, fun x y hx hy => ?_⟩
    rw [pixelAt_of_lt (hw ▸ hx) (hh ▸ hy), hm]
    rfl

end Sys2Proof.Safety

/-! The fetch and the memory it reads (spec/20_memory.md): a fetch outside memory (R47), and a fetch of bytes that a
block store put there (R43, R54). -/

namespace Sys2Proof.Safety

open Sys2Proof.Machine

/-! ## A fetch outside memory (R47) -/

/-- Settles O7: the first step changes the report alone, and the report it sets is the one the second step sets again,
since `PC` and `RUN` are as before. -/
theorem fetchFaultRepeats : Obligations.FetchFaultRepeats := by
  intro s hrun hpc
  have hfault : fetchFaults s = true := (fetchFaults_eq_true s).2 hpc
  refine ⟨_, step_of_fetchFault hrun hfault, rfl, hrun, Frame.refl.withReport (List.mem_singleton_self _) _, ?_⟩
  exact step_of_fetchFault hrun hfault

/-! ## A fetch of stored bytes (R43, R54) -/

/-- The fetched word as a natural number: the byte at the lower address high, and no wrap (R43). -/
theorem toNat_fetchWord (s : State) : (fetchWord s).toNat =
    (s.mem.read s.pc.toNat).toNat * 256 + (s.mem.read (s.pc.toNat + 1)).toNat := by
  have := (s.mem.read s.pc.toNat).isLt
  have := (s.mem.read (s.pc.toNat + 1)).isLt
  rw [fetchWord, wordOfBytes, BitVec.toNat_ofNat]
  omega

/-- A block store that stays in memory writes its block and advances `I` as its quirk says (R124). -/
theorem exec_storeRegs_of_inRange {x : Reg} {s : State} (h : s.i.toNat + x.val ≤ 0xFFF) :
    exec (.storeRegs x) s =
      .next ((s.setMem (s.mem.writeBytes (indexBase s) (blockRegs s x))).setI (blockIndex s x)) :=
  guardRange_of_ok s (rangeFaults_eq_false.2 (.inr (Nat.succ_le_succ h))) _

/-- A stored block holds the register `q` at offset `q` (R124). -/
theorem read_writeBytes_blockRegs {x q : Reg} {s : State} (h : s.i.toNat + x.val ≤ 0xFFF) (hq : q ≤ x) :
    (s.mem.writeBytes (indexBase s) (blockRegs s x)).read (s.i.toNat + q.val) = s.getV q := by
  have hlen := blockRegs_length s x
  have hfits : indexBase s + (blockRegs s x).length ≤ Config.maxAddr + 1 := by
    rw [hlen]
    exact Nat.succ_le_succ h
  have hin : indexBase s ≤ s.i.toNat + q.val ∧ s.i.toNat + q.val < indexBase s + (blockRegs s x).length :=
    ⟨Nat.le_add_right _ _, by rw [hlen]; exact Nat.add_lt_add_left (Nat.lt_succ_of_le hq) _⟩
  rw [read_writeBytes _ _ _ hfits, if_pos hin, indexBase, Nat.add_sub_cancel_left, blockRegs_getD s x q hq]

/-- Settles O42: both bytes of the fetch lie in the stored block, at the offsets `k` and `k + 1`. -/
theorem storeIsSeenByFetch : Obligations.StoreIsSeenByFetch := by
  intro x k s hrange hk
  have hhigh := read_writeBytes_blockRegs hrange hk.le
  have hlow := read_writeBytes_blockRegs (q := ⟨k.val + 1, Nat.lt_of_le_of_lt hk x.isLt⟩) hrange hk
  refine ⟨_, exec_storeRegs_of_inRange hrange, fun p hp => ?_⟩
  rw [toNat_fetchWord, hp, ← hhigh, ← hlow]
  rfl

end Sys2Proof.Safety

/-! The decoder and the encoder as inverses (spec/30_encoding.md R60 to R65). The rows of the opcode map are the pivot:
a word that fits the row of an instruction decodes to that instruction with the operands of the word's own fields, and
the decoder answers either an instruction whose row the word fits or the unknown opcode. -/

namespace Sys2Proof

/-! ## Fitting a row, in terms of the fields of the word (R61, R64) -/

section
variable {w v : Word}

theorem fits_F000_iff_opField (hv : v.toNat % 4096 = 0) :
    (OpcodeRow.mk 0xF000 v).fits w = true ↔ opField w = opField v := by
  simp only [fits_F000_iff, opField]
  omega

theorem fits_F00F_iff_fields (hv : v.toNat % 4096 < 16) :
    (OpcodeRow.mk 0xF00F v).fits w = true ↔ opField w = opField v ∧ nField w = nField v := by
  simp only [fits_F00F_iff, opField, nField, Fin.mk.injEq]
  omega

theorem fits_F0FF_iff_fields (hv : v.toNat % 4096 < 256) :
    (OpcodeRow.mk 0xF0FF v).fits w = true ↔ opField w = opField v ∧ w.toNat % 256 = v.toNat % 256 := by
  simp only [fits_F0FF_iff, opField]
  omega

theorem fits_FFFF_iff_eq : (OpcodeRow.mk 0xFFFF v).fits w = true ↔ w = v := by
  rw [fits_FFFF_iff, BitVec.toNat_eq]

end

/-! ## A word from its fields (R61, R63) -/

section
variable {w : Word} {op : Nat}

theorem toNat_nnField (w : Word) : (nnField w).toNat = w.toNat % 256 := by
  simp only [nnField, BitVec.toNat_ofNat]
  omega

theorem toNat_nnnField (w : Word) : (nnnField w).toNat = w.toNat % 4096 := by
  simp only [nnnField, BitVec.toNat_ofNat]
  omega

theorem opField_lt (w : Word) : opField w < 16 := by
  have := w.isLt
  simp only [opField]
  omega

theorem encNNN_fields (hop : opField w = op) : encNNN op (nnnField w) = w := by
  apply BitVec.eq_of_toNat_eq
  rw [toNat_encNNN (hop ▸ opField_lt w), toNat_nnnField, ← hop, opField]
  omega

theorem encXNN_fields (hop : opField w = op) : encXNN op (xField w) (nnField w) = w := by
  apply BitVec.eq_of_toNat_eq
  rw [toNat_encXNN (hop ▸ opField_lt w), toNat_nnField, ← hop]
  simp only [opField, xField]
  omega

theorem encXYN_fields {n : Nat} (hop : opField w = op) (hn : (nField w).val = n) :
    encXYN op (xField w) (yField w) n = w := by
  apply BitVec.eq_of_toNat_eq
  rw [toNat_encXYN (hop ▸ opField_lt w) (hn ▸ (nField w).isLt), ← hop, ← hn]
  simp only [opField, xField, yField, nField]
  omega

theorem encXFF_fields {low : Nat} (hop : opField w = op) (hlow : w.toNat % 256 = low) :
    encXFF op (xField w) low = w := by
  apply BitVec.eq_of_toNat_eq
  rw [toNat_encXFF (hop ▸ opField_lt w) (hlow ▸ Nat.mod_lt _ (by decide)), ← hop, ← hlow]
  simp only [opField, xField]
  omega

end

/-! ## The fields of an encoded word (R61, R63) -/

section
variable {op : Nat} (h : op < 16)
include h

theorem nnnField_encNNN (nnn : Addr12) : nnnField (encNNN op nnn) = nnn := by
  apply BitVec.eq_of_toNat_eq
  rw [toNat_nnnField, toNat_encNNN h]
  omega

/-- The top nibble of `nnn` is the field `x` of the same word (R68). -/
theorem xField_encNNN (nnn : Addr12) : (xField (encNNN op nnn)).val = nnn.toNat / 256 := by
  have := nnn.isLt
  simp only [xField, toNat_encNNN h]
  omega

theorem xField_encXNN (x : Reg) (nn : Byte) : xField (encXNN op x nn) = x := by
  have := nn.isLt
  apply Fin.ext
  simp only [xField, toNat_encXNN h]
  omega

theorem nnField_encXNN (x : Reg) (nn : Byte) : nnField (encXNN op x nn) = nn := by
  apply BitVec.eq_of_toNat_eq
  rw [toNat_nnField, toNat_encXNN h]
  omega

theorem xField_encXYN {n : Nat} (hn : n < 16) (x y : Reg) : xField (encXYN op x y n) = x := by
  apply Fin.ext
  simp only [xField, toNat_encXYN h hn]
  omega

theorem yField_encXYN {n : Nat} (hn : n < 16) (x y : Reg) : yField (encXYN op x y n) = y := by
  apply Fin.ext
  simp only [yField, toNat_encXYN h hn]
  omega

theorem nField_encXYN (x y : Reg) (n : Fin 16) : nField (encXYN op x y n.val) = n := by
  apply Fin.ext
  simp only [nField, toNat_encXYN h n.isLt]
  omega

theorem xField_encXFF {low : Nat} (hl : low < 256) (x : Reg) : xField (encXFF op x low) = x := by
  apply Fin.ext
  simp only [xField, toNat_encXFF h hl]
  omega

end

/-! ## The instruction of a row with the operands of a word -/

/-- The instruction of the same row whose operands are the fields of `w` (R61, R68). -/
def Instr.withFields (w : Word) : Instr → Instr
  | .cls => .cls
  | .ret => .ret
  | .exit => .exit
  | .low => .low
  | .high => .high
  | .jp _ => .jp (nnnField w)
  | .call _ => .call (nnnField w)
  | .seImm _ _ => .seImm (xField w) (nnField w)
  | .sneImm _ _ => .sneImm (xField w) (nnField w)
  | .seReg _ _ => .seReg (xField w) (yField w)
  | .ldImm _ _ => .ldImm (xField w) (nnField w)
  | .addImm _ _ => .addImm (xField w) (nnField w)
  | .ldReg _ _ => .ldReg (xField w) (yField w)
  | .orReg _ _ => .orReg (xField w) (yField w)
  | .andReg _ _ => .andReg (xField w) (yField w)
  | .xorReg _ _ => .xorReg (xField w) (yField w)
  | .addReg _ _ => .addReg (xField w) (yField w)
  | .subReg _ _ => .subReg (xField w) (yField w)
  | .shr _ _ => .shr (xField w) (yField w)
  | .subn _ _ => .subn (xField w) (yField w)
  | .shl _ _ => .shl (xField w) (yField w)
  | .sneReg _ _ => .sneReg (xField w) (yField w)
  | .ldI _ => .ldI (nnnField w)
  | .jpV0 _ _ => .jpV0 (xField w) (nnnField w)
  | .rnd _ _ => .rnd (xField w) (nnField w)
  | .drw _ _ _ => .drw (xField w) (yField w) (nField w)
  | .skp _ => .skp (xField w)
  | .sknp _ => .sknp (xField w)
  | .ldVxDt _ => .ldVxDt (xField w)
  | .ldVxK _ => .ldVxK (xField w)
  | .ldDtVx _ => .ldDtVx (xField w)
  | .ldStVx _ => .ldStVx (xField w)
  | .addI _ => .addI (xField w)
  | .ldF _ => .ldF (xField w)
  | .ldB _ => .ldB (xField w)
  | .storeRegs _ => .storeRegs (xField w)
  | .loadRegs _ => .loadRegs (xField w)

/-- The fields `x` and `nnn` of one word agree on their common bits, so `Bnnn` is well formed (R68). -/
theorem wellFormed_withFields (i : Instr) (w : Word) : WellFormed (i.withFields w) = true := by
  cases i with
  | jpV0 =>
    refine beq_iff_eq.2 ?_
    simp only [toNat_nnnField, xField]
    omega
  | _ => rfl

/-- The operands of a well-formed instruction are the fields of its own word. -/
theorem withFields_encode {i : Instr} (h : WellFormed i = true) : i.withFields (encode i) = i := by
  cases i with
  | cls | ret | exit | low | high => rfl
  | jp | call | ldI => simp [Instr.withFields, encode, nnnField_encNNN]
  | jpV0 x nnn =>
    have hx : xField (encNNN 0xB nnn) = x :=
      Fin.ext ((xField_encNNN (by decide) nnn).trans (beq_iff_eq.1 h).symm)
    simp [Instr.withFields, encode, nnnField_encNNN, hx]
  | seImm | sneImm | ldImm | addImm | rnd => simp [Instr.withFields, encode, xField_encXNN, nnField_encXNN]
  | seReg | sneReg | ldReg | orReg | andReg | xorReg | addReg | subReg | shr | subn | shl =>
    simp [Instr.withFields, encode, xField_encXYN, yField_encXYN]
  | drw => simp [Instr.withFields, encode, xField_encXYN, yField_encXYN, nField_encXYN]
  | skp | sknp | ldVxDt | ldVxK | ldDtVx | ldStVx | addI | ldF | ldB | storeRegs | loadRegs =>
    simp [Instr.withFields, encode, xField_encXFF]

/-- A word that fits a row is the word of that row's instruction with the word's own fields: the row and the fields
leave no bit out (R63, R64). -/
theorem encode_withFields {i : Instr} {w : Word} (h : (rowOf i).fits w = true) : encode (i.withFields w) = w := by
  cases i with
  | cls | ret | exit | low | high => exact (fits_FFFF_iff_eq.1 h).symm
  | jp | call | ldI | jpV0 => exact encNNN_fields ((fits_F000_iff_opField (by decide)).1 h)
  | seImm | sneImm | ldImm | addImm | rnd => exact encXNN_fields ((fits_F000_iff_opField (by decide)).1 h)
  | drw => exact encXYN_fields ((fits_F000_iff_opField (by decide)).1 h) rfl
  | seReg | sneReg | ldReg | orReg | andReg | xorReg | addReg | subReg | shr | subn | shl =>
    obtain ⟨hop, hn⟩ := (fits_F00F_iff_fields (by decide)).1 h
    exact encXYN_fields hop (congrArg Fin.val hn)
  | skp | sknp | ldVxDt | ldVxK | ldDtVx | ldStVx | addI | ldF | ldB | storeRegs | loadRegs =>
    obtain ⟨hop, hlow⟩ := (fits_F0FF_iff_fields (by decide)).1 h
    exact encXFF_fields hop hlow

/-! ## The decoder row by row -/

/-- A word that fits a row decodes to that row's instruction with the word's own fields (R64). -/
theorem decodeWord_of_fits {i : Instr} {w : Word} (h : (rowOf i).fits w = true) :
    decodeWord w = .ok (i.withFields w) := by
  cases i with
  | cls | ret | exit | low | high =>
    obtain rfl := fits_FFFF_iff_eq.1 h
    rfl
  | jp | call | ldI | jpV0 | seImm | sneImm | ldImm | addImm | rnd | drw =>
    rw [decodeWord, (fits_F000_iff_opField (by decide)).1 h]
    rfl
  | seReg | sneReg =>
    obtain ⟨hop, hn⟩ := (fits_F00F_iff_fields (by decide)).1 h
    rw [decodeWord, hop, hn]
    rfl
  | ldReg | orReg | andReg | xorReg | addReg | subReg | shr | subn | shl =>
    obtain ⟨hop, hn⟩ := (fits_F00F_iff_fields (by decide)).1 h
    rw [decodeWord, hop, decodeGroup8, hn]
    rfl
  | skp | sknp =>
    obtain ⟨hop, hlow⟩ := (fits_F0FF_iff_fields (by decide)).1 h
    rw [decodeWord, hop, decodeGroupE, hlow]
    rfl
  | ldVxDt | ldVxK | ldDtVx | ldStVx | addI | ldF | ldB | storeRegs | loadRegs =>
    obtain ⟨hop, hlow⟩ := (fits_F0FF_iff_fields (by decide)).1 h
    rw [decodeWord, hop, decodeGroupF, hlow]
    rfl

/-- The answers a decoder may give for `w`: an instruction whose row `w` fits, or the unknown opcode `w` (R62, R66). -/
def SoundAnswer (w : Word) : Except DecodeError Instr → Prop
  | .ok i => (rowOf i).fits w = true
  | .error e => e = .unknownOpcode w

theorem decodeGroup0_sound (w : Word) : SoundAnswer w (decodeGroup0 w) := by
  unfold decodeGroup0
  split
  case h_6 => rfl
  all_goals exact (fits_FFFF_iff _ _).2 ‹_›

section
variable {w : Word}

theorem decodeGroup8_sound (hop : opField w = 0x8) : SoundAnswer w (decodeGroup8 w) := by
  unfold decodeGroup8
  split
  case h_10 => rfl
  all_goals exact (fits_F00F_iff_fields (by decide)).2 ⟨hop, Fin.ext ‹_›⟩

theorem decodeGroupE_sound (hop : opField w = 0xE) : SoundAnswer w (decodeGroupE w) := by
  unfold decodeGroupE
  split
  case h_3 => rfl
  all_goals exact (fits_F0FF_iff_fields (by decide)).2 ⟨hop, ‹_›⟩

theorem decodeGroupF_sound (hop : opField w = 0xF) : SoundAnswer w (decodeGroupF w) := by
  unfold decodeGroupF
  split
  case h_10 => rfl
  all_goals exact (fits_F0FF_iff_fields (by decide)).2 ⟨hop, ‹_›⟩

end

/-- Dispatch group by group: the groups with a secondary dispatch by their own lemmas, groups 5 and 9 by their last
nibble, and every other group is one row of its top nibble. -/
theorem decodeWord_sound (w : Word) : SoundAnswer w (decodeWord w) := by
  unfold decodeWord
  split
  case h_1 => exact decodeGroup0_sound w
  case h_9 => exact decodeGroup8_sound ‹_›
  case h_15 => exact decodeGroupE_sound ‹_›
  case h_16 => exact decodeGroupF_sound ‹_›
  case h_17 => rfl
  case h_6 | h_10 =>
    split
    · exact (fits_F00F_iff_fields (by decide)).2 ⟨‹_›, ‹_›⟩
    · rfl
  all_goals exact (fits_F000_iff_opField (by decide)).2 ‹_›

theorem fits_of_decodeWord {w : Word} {i : Instr} (h : decodeWord w = .ok i) : (rowOf i).fits w = true := by
  have hs := decodeWord_sound w
  rwa [h] at hs

theorem eq_unknownOpcode_of_decodeWord {w : Word} {e : DecodeError} (h : decodeWord w = .error e) :
    e = .unknownOpcode w := by
  have hs := decodeWord_sound w
  rwa [h] at hs

/-! ## The rows of the map (R64) -/

/-- An instruction's word fits the instruction's own row. -/
theorem rowOf_fits_encode (i : Instr) : (rowOf i).fits (encode i) = true := by
  cases i with
  | cls | ret | exit | low | high => rfl
  | drw x y n => exact Laws.EncodeRow.drw x y n
  | jp | call | ldI | jpV0 => exact Laws.EncodeRow.nnn_row (by decide) (by decide) _
  | seImm | sneImm | ldImm | addImm | rnd => exact Laws.EncodeRow.xnn_row (by decide) (by decide) _ _
  | seReg | sneReg | ldReg | orReg | andReg | xorReg | addReg | subReg | shr | subn | shl =>
    exact Laws.EncodeRow.xyf_row (by decide) (by decide) (by decide) _ _
  | skp | sknp | ldVxDt | ldVxK | ldDtVx | ldStVx | addI | ldF | ldB | storeRegs | loadRegs =>
    exact Laws.EncodeRow.xff_row (by decide) (by decide) (by decide) _

theorem rowOf_mem_opcodeRows (i : Instr) : rowOf i ∈ opcodeRows := by
  cases i <;> simp [rowOf, opcodeRows, opcodeRowsLow, opcodeRowsMid, opcodeRowsHigh]

/-- One instruction of each row, in the order of the map. -/
def rowInstrs : List Instr :=
  [.cls, .ret, .exit, .low, .high, .jp 0, .call 0, .seImm 0 0, .sneImm 0 0, .seReg 0 0, .ldImm 0 0, .addImm 0 0,
   .ldReg 0 0, .orReg 0 0, .andReg 0 0, .xorReg 0 0, .addReg 0 0, .subReg 0 0, .shr 0 0, .subn 0 0, .shl 0 0,
   .sneReg 0 0, .ldI 0, .jpV0 0 0, .rnd 0 0, .drw 0 0 0, .skp 0, .sknp 0, .ldVxDt 0, .ldVxK 0, .ldDtVx 0, .ldStVx 0,
   .addI 0, .ldF 0, .ldB 0, .storeRegs 0, .loadRegs 0]

theorem exists_rowOf_eq {r : OpcodeRow} (hr : r ∈ opcodeRows) : ∃ i, rowOf i = r := by
  have hmap : opcodeRows = rowInstrs.map rowOf := rfl
  obtain ⟨i, -, hi⟩ := List.mem_map.1 (hmap ▸ hr)
  exact ⟨i, hi⟩

/-- Different rows demand different bits under their common mask. -/
theorem opcodeRows_disjoint :
    ∀ r ∈ opcodeRows, ∀ r' ∈ opcodeRows, r.value &&& r'.mask = r'.value &&& r.mask → r = r' := by
  decide

/-- A word fits at most one row of the map (R62). -/
theorem row_unique {w : Word} {r r' : OpcodeRow} (hr : r ∈ opcodeRows) (hr' : r' ∈ opcodeRows)
    (h : r.fits w = true) (h' : r'.fits w = true) : r = r' := by
  have hw : w &&& r.mask = r.value := beq_iff_eq.1 h
  have hw' : w &&& r'.mask = r'.value := beq_iff_eq.1 h'
  refine opcodeRows_disjoint r hr r' hr' ?_
  rw [← hw, ← hw', BitVec.and_assoc, BitVec.and_assoc, BitVec.and_comm r.mask]

/-- A word that fits a row of the map decodes (R62). -/
theorem exists_decodeWord_of_fits {w : Word} {r : OpcodeRow} (hr : r ∈ opcodeRows) (h : r.fits w = true) :
    ∃ i, decodeWord w = .ok i := by
  obtain ⟨i, rfl⟩ := exists_rowOf_eq hr
  exact ⟨_, decodeWord_of_fits h⟩

/-- A word that fits no row of the map is the unknown opcode (R62, R66). -/
theorem decodeWord_of_no_row {w : Word} (h : ∀ r ∈ opcodeRows, r.fits w = false) :
    decodeWord w = .error (.unknownOpcode w) := by
  cases hd : decodeWord w with
  | ok i => exact absurd (fits_of_decodeWord hd) (by simp [h _ (rowOf_mem_opcodeRows i)])
  | error e => rw [eq_unknownOpcode_of_decodeWord hd]

/-! ## Decode and encode -/

theorem decodeWord_encode {i : Instr} (h : WellFormed i = true) : decodeWord (encode i) = .ok i := by
  rw [decodeWord_of_fits (rowOf_fits_encode i), withFields_encode h]

/-- A decoded instruction's operands are the fields of the word. -/
theorem withFields_of_decodeWord {w : Word} {i : Instr} (h : decodeWord w = .ok i) : i.withFields w = i :=
  Except.ok.inj ((decodeWord_of_fits (fits_of_decodeWord h)).symm.trans h)

/-- Settles O2: the word fits the instruction's own row, so it decodes to that row's instruction with the fields of the
word, which are the operands it was made of. -/
theorem decodeOfEncode : Obligations.DecodeOfEncode := by
  intro i h
  refine ⟨decodeWord_encode h, fun rest => ?_⟩
  rw [encodeBytes, List.cons_append, List.cons_append, List.nil_append, decode_cons_cons, wordOfBytes_high_low,
    decodeWord_encode h]
  rfl

/-- Settles O3: a decoded instruction is the one of the row the word fits with the word's own fields, and that one
encodes back to the word. -/
theorem encodeOfDecode : Obligations.EncodeOfDecode := by
  intro w i h
  have hfits := fits_of_decodeWord h
  have hi := withFields_of_decodeWord h
  exact ⟨hi ▸ encode_withFields hfits, hi ▸ wellFormed_withFields i w, rowOf_mem_opcodeRows i, hfits⟩

/-- Settles O4: the row of the decoded instruction is the only one that fits, and a row that fits would decode. -/
theorem wordMatchesOneRowOrIsUnknown : Obligations.WordMatchesOneRowOrIsUnknown := by
  intro w
  cases hd : decodeWord w with
  | ok i =>
    have hfits := fits_of_decodeWord hd
    have hmem := rowOf_mem_opcodeRows i
    exact .inl ⟨⟨rowOf i, hmem, hfits, fun r hr h => row_unique hr hmem h hfits⟩, i, rfl⟩
  | error e =>
    refine .inr ⟨fun r hr => Bool.eq_false_iff.2 fun h => ?_, by rw [eq_unknownOpcode_of_decodeWord hd]⟩
    obtain ⟨i, hi⟩ := exists_decodeWord_of_fits hr h
    cases hd.symm.trans hi

/-- Settles O1: fixed words, by evaluating the decoder. -/
theorem writtenWordsDecode : Obligations.WrittenWordsDecode := by
  unfold Obligations.WrittenWordsDecode
  decide

end Sys2Proof

/-! The step algorithm on the decoded word (spec/30_encoding.md R66, R70; spec/60_exceptions.md R150, R164): what a
running step does with the word at `PC`, and what an instruction that reports leaves as it was. -/

namespace Sys2Proof.Safety

open Sys2Proof.Machine

/-! ## The fetched word -/

section
variable {s : State}

/-- A word given by its arithmetic from the bytes at `PC` is the fetched word (R43). -/
theorem eq_fetchWord {w : Word}
    (h : w.toNat = (s.mem.read s.pc.toNat).toNat * 256 + (s.mem.read (s.pc.toNat + 1)).toNat) : w = fetchWord s :=
  BitVec.eq_of_toNat_eq (h.trans (toNat_fetchWord s).symm)

/-- Decoding the two bytes at `PC` is decoding the fetched word (R60). -/
theorem decodeWord_fetchWord_of_decode {i : Instr} {rest : List Byte}
    (h : decode [s.mem.read s.pc.toNat, s.mem.read (s.pc.toNat + 1)] = .ok (i, rest)) :
    decodeWord (fetchWord s) = .ok i := by
  rw [decode_cons_cons, ← fetchWord] at h
  cases hd : decodeWord (fetchWord s) with
  | ok j =>
    rw [hd] at h
    cases h
    rfl
  | error e =>
    rw [hd] at h
    cases h

end

/-! ## A report is precise -/

section
variable {s t : State}

/-- From `s` to `t` either the report is kept or it is all that differs: nothing is partly done (R48, R164). -/
def PreciseReport (s t : State) : Prop := t.report = s.report ∨ t = { s with report := t.report }

theorem PreciseReport.of_guardRange {base len : Nat} {u : State} (h : guardRange base len s (.next u) = .next t)
    (hu : u.report = s.report) : PreciseReport s t := by
  rcases guardRange_cases s base len (.next u) with ⟨-, e⟩ | ⟨-, e⟩
  · exact next_inj (e.symm.trans h) ▸ .inr rfl
  · exact next_inj (e.symm.trans h) ▸ .inl hu

theorem PreciseReport.of_callTo {depth : Option Nat} {target : Word} (h : callTo depth target s = .next t) :
    PreciseReport s t := by
  rcases callTo_cases s depth target with ⟨-, e⟩ | ⟨-, e⟩
  · exact next_inj (e.symm.trans h) ▸ .inr rfl
  · exact next_inj (e.symm.trans h) ▸ .inl rfl

theorem PreciseReport.of_returnFromCall (h : returnFromCall s = .next t) : PreciseReport s t := by
  rcases returnFromCall_cases s with ⟨-, e⟩ | ⟨a, rest, -, e⟩
  · exact next_inj (e.symm.trans h) ▸ .inr rfl
  · exact next_inj (e.symm.trans h) ▸ .inl rfl

/-- An instruction that raises a report does nothing else: six instructions can raise one, the frame of every other
keeps the report (R150, R164). -/
theorem exec_preciseReport {i : Instr} (h : exec i s = .next t) : PreciseReport s t := by
  rcases (exec_frame h).report with hmem | hkept
  · cases i with
    | ret => exact .of_returnFromCall h
    | call => exact .of_callTo h
    | drw | ldB | storeRegs | loadRegs => exact .of_guardRange h rfl
    | _ => simp at hmem
  · exact .inl hkept

end

/-! ## The step on the word at `PC` -/

/-- The running step on a word that decodes: the report it may raise changes nothing but the fetch-advanced `PC`
(R70). -/
theorem step_precise_of_decoded {s t : State} {i : Instr} (hrun : s.run = .running) (hf : fetchFaults s = false)
    (hd : decodeWord (fetchWord s) = .ok i) (h : step s = .next t) (hr : t.report ≠ .none) :
    t = { s with pc := s.pc + 2, report := t.report } :=
  (exec_preciseReport ((step_of_decoded hrun hf hd).symm.trans h)).resolve_left hr

/-- Settles O5, case by case as the step checks them. -/
theorem stepAlgorithm : Obligations.StepAlgorithm := by
  refine fun s => ⟨step_of_idle, fun hrun hpc => ?_, fun hrun hpc w hw => ?_⟩
  · exact step_of_fetchFault hrun ((fetchFaults_eq_true s).2 (Nat.le_of_lt_succ hpc))
  · have hf : fetchFaults s = false := (fetchFaults_eq_false s).2 (Nat.le_of_succ_le_succ hpc)
    obtain rfl := eq_fetchWord hw
    exact ⟨fun i hd => ⟨step_of_decoded hrun hf hd, fun t h hr => step_precise_of_decoded hrun hf hd h hr⟩,
      fun e hd => step_of_unknown hrun hf hd⟩

/-- Settles O8: a word that fits no row does not decode. -/
theorem unknownOpcodeIsReportedNoop : Obligations.UnknownOpcodeIsReportedNoop := by
  intro s hrun hpc w hw hrows
  have hf : fetchFaults s = false := (fetchFaults_eq_false s).2 (Nat.le_of_succ_le_succ hpc)
  obtain rfl := eq_fetchWord hw
  exact step_of_unknown hrun hf (decodeWord_of_no_row fun r hr => beq_eq_false_iff_ne.2 (hrows r hr))

/-- Settles O6: the bytes at `PC` decode as the fetched word does. -/
theorem stepRunsDecodedInstruction : Obligations.StepRunsDecodedInstruction :=
  fun s _ hrun hpc _ hd =>
    step_of_decoded hrun ((fetchFaults_eq_false s).2 hpc) (decodeWord_fetchWord_of_decode hd)

/-! ## A placed instruction (R43, R70; log 19) -/

theorem tableWord_toNat (w : Word) : tableWord 16 w.toNat = w := by
  rw [tableWord, Nat.mod_eq_of_lt w.isLt, BitVec.ofNat_toNat, BitVec.setWidth_eq]

/-- Two bytes written in memory at `PC` are the word the next fetch reads, the first one high (R43). -/
theorem fetchWord_of_writeBytes {s : State} {m : Memory} {hi lo : Byte} (hpc : s.pc.toNat ≤ 0xFFE)
    (hm : s.mem = m.writeBytes s.pc.toNat [hi, lo]) : fetchWord s = wordOfBytes hi lo := by
  have hread := read_writeBytes [hi, lo] m s.pc.toNat (Nat.add_le_add_right hpc 2)
  have hhigh : s.mem.read s.pc.toNat = hi := by simp [hm, hread]
  have hlow : s.mem.read (s.pc.toNat + 1) = lo := by simp [hm, hread]
  rw [fetchWord, hhigh, hlow]

section
variable (s : State)

/-- A word is placed at `PC`, or at the entry point where `PC` is out of range. -/
theorem withFetchWord_pc (nbits w : Nat) :
    (s.withFetchWord nbits w).pc.toNat = if fetchFaults s then Config.progBase else s.pc.toNat := by
  rw [State.withFetchWord]
  split <;> rfl

/-- Where a word is placed it can be fetched (R47). -/
theorem withFetchWord_pc_le (nbits w : Nat) : (s.withFetchWord nbits w).pc.toNat ≤ 0xFFE := by
  rw [withFetchWord_pc]
  split
  · decide
  · exact (fetchFaults_eq_false s).1 (Bool.eq_false_iff.2 ‹_›)

theorem fetchWord_withFetchWord (w : Word) : fetchWord (s.withFetchWord 16 w.toNat) = w := by
  have hmem : (s.withFetchWord 16 w.toNat).mem =
      s.mem.writeBytes (s.withFetchWord 16 w.toNat).pc.toNat [highByte w, lowByte w] := by
    rw [withFetchWord_pc, State.withFetchWord, tableWord_toNat]
  rw [fetchWord_of_writeBytes (withFetchWord_pc_le s 16 _) hmem, wordOfBytes_high_low]

end

/-- Settles O9: the placed word is fetched, and it decodes to the instruction it encodes. -/
theorem placedInstructionRunsNext : Obligations.PlacedInstructionRunsNext := by
  intro s i hwf
  have hf := (fetchFaults_eq_false _).2 (withFetchWord_pc_le s 16 (encode i).toNat)
  have hd := (congrArg decodeWord (fetchWord_withFetchWord s (encode i))).trans (decodeWord_encode hwf)
  exact step_of_decoded rfl hf hd

end Sys2Proof.Safety

/-! The four instructions of spec/40_system_display_control.md: each writes one piece of the state, and what its rule adds
to that is a fact about the outputs (R31, R32) or about a stopped machine (R81). -/

namespace Sys2Proof.Safety

open Sys2Proof.Machine

/-- An instruction's word matches the row it belongs to (R64). -/
theorem hasRow_of_rowOf_eq {i : Instr} {mask value : Word} (h : rowOf i = ⟨mask, value⟩) : HasRow i mask value :=
  ⟨h, eq_of_beq (h ▸ rowOf_fits_encode i : (OpcodeRow.mk mask value).fits (encode i) = true)⟩

section
variable (s : State)

/-! ## The instructions as updates of the state -/

theorem exec_cls_eq : exec .cls s = .next (s.setFb blankFb) := rfl

theorem exec_exit_eq : exec .exit s = .next { s with run := .stopped } := rfl

theorem exec_low_eq : exec .low s = .next { s with mode := .lores } := rfl

theorem exec_high_eq : exec .high s = .next { s with mode := .hires } := rfl

end

/-! ## A stopped machine (R81, R159 to R162) -/

section
variable {s : State} (h : s.run = .stopped)
include h

theorem step_of_stopped : step s = .next { s with report := .none } :=
  step_of_idle (by rw [h]; decide)

theorem tickEvent_of_stopped : tickEvent s = s := by
  simp only [tickEvent, h]

theorem pauseToggleEvent_of_stopped : pauseToggleEvent s = s := by
  simp only [pauseToggleEvent, h]

theorem stopEvent_of_stopped : stopEvent s = s := by
  rw [stopEvent, ← h]

end

/-- Settles O21: the cleared framebuffer has no pixel on, and it is all that is written. -/
theorem clsClearsWholeGrid : Obligations.ClsClearsWholeGrid :=
  ⟨hasRow_of_rowOf_eq rfl, fun s =>
    ⟨_, exec_cls_eq s, fun x y _ _ => fbPixel_blankFb x y, Frame.refl.setFb (List.mem_singleton_self _) _⟩⟩

/-- Settles O22: the instruction writes the run-state alone, and no event but a reset moves a stopped machine. -/
theorem exitStopsForGood : Obligations.ExitStopsForGood := by
  refine ⟨hasRow_of_rowOf_eq rfl, fun s => ⟨_, exec_exit_eq s, rfl, ?frame, ?step, ?tick, ?pauseToggle, ?stop, rfl⟩⟩
  case frame => exact Frame.refl.withRun (List.mem_singleton_self _) _
  case step => exact step_of_stopped (s := { s with run := .stopped }) rfl
  case tick => exact congrArg Host.Outcome.next (tickEvent_of_stopped rfl)
  case pauseToggle => exact congrArg Host.Outcome.next (pauseToggleEvent_of_stopped rfl)
  case stop => exact congrArg Host.Outcome.next (stopEvent_of_stopped rfl)

/-- Settles O23: the mode alone is written, and the outputs of the new state show the old picture in that mode (R31). -/
theorem modeSwitchKeepsPicture : Obligations.ModeSwitchKeepsPicture := by
  refine ⟨hasRow_of_rowOf_eq rfl, hasRow_of_rowOf_eq rfl, fun s => ⟨?low, ?high⟩⟩
  case low =>
    obtain ⟨-, hlores, -⟩ := outputsShowState { s with mode := .lores }
    exact ⟨_, exec_low_eq s, rfl, Frame.refl.withMode (List.mem_singleton_self _) _, hlores rfl⟩
  case high =>
    obtain ⟨hhires, -, -⟩ := outputsShowState { s with mode := .hires }
    exact ⟨_, exec_high_eq s, rfl, Frame.refl.withMode (List.mem_singleton_self _) _, hhires rfl⟩

end Sys2Proof.Safety

/-! The eight instructions of spec/41_control_flow.md: the call and the return as one push read in both directions (R90,
R92), the jumps with the fetch that follows them (R91, R97), and the skips (R93 to R96). -/

namespace Sys2Proof.Safety

open Sys2Proof.Machine

/-! ## The entries of a stack with one more push (R18) -/

section
variable {s t : State} {a : Word} (h : t.stack = a :: s.stack)
include h

theorem sp_of_push : t.sp = s.sp + 1 := congrArg List.length h

theorem stackEntry_top_of_push : t.stackEntry s.sp = some a := by
  rw [State.stackEntry, h, List.reverse_cons, State.sp, ← List.length_reverse, List.getElem?_concat_length]

theorem stackEntry_below_of_push {k : Nat} (hk : k < s.sp) : t.stackEntry k = s.stackEntry k := by
  have hlen : k < s.stack.reverse.length := hk.trans_eq List.length_reverse.symm
  rw [State.stackEntry, h, List.reverse_cons, List.getElem?_append_left hlen, State.stackEntry]

end

/-! ## The instructions as updates of the state -/

section
variable {s : State} {a : Word} {rest : List Word}

theorem exec_ret_of_empty (h : s.stack = []) : exec .ret s = .next { s with report := .stackUnderflow } := by
  rcases returnFromCall_cases s with ⟨-, e⟩ | ⟨b, l, hcons, -⟩
  · exact e
  · cases h.symm.trans hcons

theorem exec_ret_of_cons (h : s.stack = a :: rest) : exec .ret s = .next { s with stack := rest, pc := a } := by
  rcases returnFromCall_cases s with ⟨hnil, -⟩ | ⟨b, l, hcons, e⟩
  · cases h.symm.trans hnil
  · cases h.symm.trans hcons
    exact e

theorem callTo_of_full {depth : Option Nat} (h : stackFull depth s.stack = true) (target : Word) :
    callTo depth target s = .next { s with report := .stackOverflow } :=
  if_pos h

theorem callTo_of_room {depth : Option Nat} (h : stackFull depth s.stack = false) (target : Word) :
    callTo depth target s = .next { s with stack := s.pc :: s.stack, pc := target } :=
  if_neg (Bool.eq_false_iff.1 h)

/-- On this hardware a call has room below 16 entries (R18, R92). -/
theorem exec_call_of_room (h : s.sp < 16) (nnn : Addr12) :
    exec (.call nnn) s = .next { s with stack := s.pc :: s.stack, pc := addrOperand nnn } :=
  callTo_of_room (Bool.eq_false_iff.2 fun hfull => Nat.not_le.2 h ((stackFull_hardware s.stack).1 hfull)) _

end

theorem toNat_addrOperand (nnn : Addr12) : (addrOperand nnn).toNat = nnn.toNat :=
  BitVec.toNat_setWidth_of_le (by decide)

theorem exec_jp_eq (s : State) (nnn : Addr12) : exec (.jp nnn) s = .next (s.setPc (addrOperand nnn)) := rfl

theorem exec_jpV0_eq (s : State) (x : Reg) (nnn : Addr12) :
    exec (.jpV0 x nnn) s = .next (s.setPc (addrOperand nnn + wideReg s (jumpReg s x))) := rfl

/-! ## Call and return -/

/-- Call and return write `PC` and the stack alone. -/
theorem frame_stack_pc (s : State) (l : List Word) (w : Word) :
    Frame [.pc, .stack] [] [] s { s with stack := l, pc := w } :=
  (Frame.refl.withStack (by decide) l).setPc (by decide) w

/-- A return from a non-empty stack reads its latest entry as a push of the new `PC` on the stack it leaves (R90). -/
theorem exec_ret_pops {s : State} (h : 0 < s.sp) :
    ∃ t, exec .ret s = .next t ∧ s.stack = t.pc :: t.stack ∧ Frame [.pc, .stack] [] [] s t := by
  obtain ⟨a, rest, hstack⟩ := List.exists_cons_of_length_pos h
  exact ⟨_, exec_ret_of_cons hstack, hstack, frame_stack_pc s rest a⟩

/-- Settles O25: what the return pops is a push read backwards. -/
theorem retPopsOrReports : Obligations.RetPopsOrReports := by
  refine ⟨hasRow_of_rowOf_eq rfl, fun s => ⟨fun hsp => ?empty, fun hsp => ?pop⟩⟩
  case empty => exact exec_ret_of_empty (List.eq_nil_of_length_eq_zero hsp)
  case pop =>
    obtain ⟨t, hexec, hpush, hframe⟩ := exec_ret_pops hsp
    have hleft : s.sp - 1 = t.sp := Nat.sub_eq_of_eq_add (sp_of_push hpush)
    exact ⟨t, hexec, hleft.symm, hleft ▸ stackEntry_top_of_push hpush,
      fun k hk => (stackEntry_below_of_push hpush hk).symm, hframe⟩

/-- Settles O27: where there is room, and always on the unbounded stack, the call pushes `PC`. -/
theorem callPushesOrReports : Obligations.CallPushesOrReports := by
  refine fun nnn s => ⟨hasRow_of_rowOf_eq rfl, fun hsp => ?full, fun hsp => ?room, ?unbounded⟩
  case full => exact callTo_of_full ((stackFull_hardware s.stack).2 hsp.ge) _
  case room =>
    exact ⟨_, exec_call_of_room hsp nnn, sp_of_push rfl, stackEntry_top_of_push rfl,
      fun k hk => stackEntry_below_of_push rfl hk, toNat_addrOperand nnn, frame_stack_pc s _ _⟩
  case unbounded =>
    exact ⟨_, callTo_of_room (stackFull_unbounded s.stack) _, sp_of_push rfl, stackEntry_top_of_push rfl, rfl⟩

/-- Settles O28: the return pops what the call pushed, and neither writes anything but `PC` and the stack. -/
theorem callThenReturnComesBack : Obligations.CallThenReturnComesBack :=
  fun nnn _ _ hsp => ⟨_, _, exec_call_of_room hsp nnn, exec_ret_of_cons rfl, rfl⟩

/-! ## Jumps -/

/-- After a jump above `0xFFE` a running machine reports its next fetch (R47, R91, R97). -/
theorem step_setPc_of_above {s : State} {w : Word} (hrun : s.run = .running) (hw : 0xFFE < w.toNat) :
    step (s.setPc w) = .next { s.setPc w with report := .memoryFault (max w.toNat 0x1000) } :=
  step_of_fetchFault (s := s.setPc w) hrun ((fetchFaults_eq_true _).2 hw)

/-- Settles O26: `0xFFF` is the one target outside the fetch range. -/
theorem jumpSetsPc : Obligations.JumpSetsPc := by
  refine fun nnn s => ⟨hasRow_of_rowOf_eq rfl, _, exec_jp_eq s nnn, toNat_addrOperand nnn, ?frame,
    fun hrun hn => ?fetch⟩
  case frame => exact Frame.refl.setPc (List.mem_singleton_self _) _
  case fetch =>
    subst hn
    exact step_setPc_of_above (w := addrOperand 0xFFF) hrun (by decide)

/-- The target of `Bnnn` is a sum of at most `0x10FE`, which 16 bits hold (R97). -/
theorem toNat_jpV0_target (s : State) (x : Reg) (nnn : Addr12) :
    (addrOperand nnn + wideReg s x).toNat = nnn.toNat + (s.getV x).toNat := by
  have hnnn := nnn.isLt
  have hbyte := (s.getV x).isLt
  have hwide : (wideReg s x).toNat = (s.getV x).toNat := BitVec.toNat_setWidth_of_le (by decide)
  rw [BitVec.toNat_add, toNat_addrOperand, hwide]
  omega

/-- Settles O30: `jumpReg` picks the register, and the sum does not wrap. -/
theorem jumpWithOffset : Obligations.JumpWithOffset := by
  refine fun x nnn s hwf => ⟨hasRow_of_rowOf_eq rfl, eq_of_beq hwf, _, exec_jpV0_eq s x nnn, ?frame, ?target,
    step_setPc_of_above⟩
  case frame => exact Frame.refl.setPc (List.mem_singleton_self _) _
  case target =>
    rw [setPc_pc, toNat_jpV0_target, jumpReg]
    split <;> rfl

/-! ## Skips -/

/-- A skip on a condition changes `PC` alone, by 2 where the condition holds. -/
theorem exec_skip {i : Instr} {c : Bool} {s : State} {p : Prop} [Decidable p] (h : exec i s = .next (skipIf c s))
    (hc : c = true ↔ p) :
    ∃ t, exec i s = .next t ∧ Frame [.pc] [] [] s t ∧ t.pc = if p then s.pc + 2 else s.pc :=
  ⟨_, h, Frame.refl.skipIf (List.mem_singleton_self _) c, by rw [skipIf_eq, if_congr hc rfl rfl]⟩

/-- The comparison of `3xnn` and `5xy0`, on naturals. -/
theorem beq_iff_toNat_eq (a b : Byte) : (a == b) = true ↔ a.toNat = b.toNat :=
  beq_iff_eq.trans BitVec.toNat_inj.symm

/-- The comparison of `4xnn` and `9xy0`, on naturals. -/
theorem bne_iff_toNat_ne (a b : Byte) : (a != b) = true ↔ ¬ a.toNat = b.toNat :=
  bne_iff_ne.trans (not_congr BitVec.toNat_inj.symm)

/-- Settles O29: the skips on a difference are skips on an equality with the branches exchanged. -/
theorem comparisonSkips : Obligations.ComparisonSkips := by
  intro x y nn s
  refine ⟨⟨hasRow_of_rowOf_eq rfl, ?seImm⟩, ⟨hasRow_of_rowOf_eq rfl, ?sneImm⟩, ⟨hasRow_of_rowOf_eq rfl, ?seReg⟩,
    ⟨hasRow_of_rowOf_eq rfl, ?sneReg⟩⟩
  case seImm => exact exec_skip rfl (beq_iff_toNat_eq (s.getV x) nn)
  case sneImm => simpa only [ite_not] using exec_skip rfl (bne_iff_toNat_ne (s.getV x) nn)
  case seReg => exact exec_skip rfl (beq_iff_toNat_eq (s.getV x) (s.getV y))
  case sneReg => simpa only [ite_not] using exec_skip rfl (bne_iff_toNat_ne (s.getV x) (s.getV y))

end Sys2Proof.Safety

/-! The instructions of spec/42_alu.md. Each writes at most a result to `V[x]` and a flag to `VF`; the order of the two
writes decides which of them stands where `x` is F, so each order has one lemma. -/

namespace Sys2Proof.Safety

open Sys2Proof.Machine

/-! ## Flags and operands as naturals -/

theorem toNat_flagByte (c : Bool) : (flagByte c).toNat = c.toNat := by
  cases c <;> rfl

theorem toNat_flagByte_decide (p : Prop) [Decidable p] : (flagByte (decide p)).toNat = if p then 1 else 0 := by
  rw [toNat_flagByte, Bool.toNat, Bool.cond_decide]

theorem toNat_carryFlag (a b : Byte) : (carryFlag a b).toNat = if 255 < a.toNat + b.toNat then 1 else 0 :=
  toNat_flagByte_decide _

theorem toNat_noBorrowFlag (a b : Byte) : (noBorrowFlag a b).toNat = if b.toNat ≤ a.toNat then 1 else 0 :=
  toNat_flagByte_decide _

theorem toNat_flagByte_getLsbD (b : Byte) (j : Nat) : (flagByte (b.getLsbD j)).toNat = b.toNat / 2 ^ j % 2 :=
  (toNat_flagByte _).trans (Nat.toNat_testBit b.toNat j)

theorem toNat_shiftedOutRight (b : Byte) : (shiftedOutRight b).toNat = b.toNat % 2 := by
  rw [shiftedOutRight, toNat_flagByte_getLsbD, pow_zero, Nat.div_one]

/-- Bit 7 is the highest of a byte, so the quotient needs no reduction. -/
theorem toNat_shiftedOutLeft (b : Byte) : (shiftedOutLeft b).toNat = b.toNat / 128 := by
  have hb := b.isLt
  have hbit := toNat_flagByte_getLsbD b 7
  rw [shiftedOutLeft]
  omega

theorem toNat_shiftRight_one (b : Byte) : (b >>> 1).toNat = b.toNat / 2 :=
  Nat.shiftRight_eq_div_pow _ 1

theorem toNat_shiftLeft_one (b : Byte) : (b <<< 1).toNat = b.toNat * 2 % 256 := by
  rw [BitVec.toNat_shiftLeft, Nat.shiftLeft_eq, pow_one]

/-- The difference mod 256, with the minuend first as the rules write it (R107, R109). -/
theorem toNat_sub_byte (a b : Byte) : (a - b).toNat = (a.toNat + 256 - b.toNat) % 256 := by
  have hb := b.isLt
  rw [BitVec.toNat_sub]
  omega

/-- The quirk chooses the register that is shifted (R27). -/
theorem shiftSource_eq (s : State) (x y : Reg) :
    shiftSource s x y = s.getV (if s.quirks.legacy = true then y else x) :=
  (apply_ite s.getV _ y x).symm

/-! ## A result alone, and a result with a flag in either order -/

theorem getV_setV_same (s : State) (r : Reg) (b : Byte) : (s.setV r b).getV r = b := by
  rw [getV_setV, if_pos rfl]

theorem getV_setV_of_ne (s : State) {r q : Reg} (h : q ≠ r) (b : Byte) : (s.setV r b).getV q = s.getV q := by
  rw [getV_setV, if_neg h]

section
variable {i : Instr} {s : State} {x : Reg} {b f : Byte}

theorem exec_result (h : exec i s = .next (s.setV x b)) :
    ∃ t, exec i s = .next t ∧ t.getV x = b ∧ Frame [] [x] [] s t :=
  ⟨_, h, getV_setV_same s x b, Frame.refl.setV (List.mem_singleton_self x) b⟩

/-- The flag first: where `x` is F the result wins (R106, R107, R109). -/
theorem exec_flag_then_result {n m : Nat} (h : exec i s = .next ((s.setV vf f).setV x b)) (hb : b.toNat = n)
    (hf : f.toNat = m) :
    ∃ t, exec i s = .next t ∧ (t.getV x).toNat = n ∧ (x ≠ vf → (t.getV vf).toNat = m) ∧ Frame [] [x, vf] [] s t := by
  refine ⟨_, h, ?result, fun hx => ?flag, (Frame.refl.setV (by simp) f).setV (by simp) b⟩
  case result => rw [getV_setV_same, hb]
  case flag => rw [getV_setV_of_ne _ hx.symm, getV_setV_same, hf]

/-- The result first: where `x` is F the flag wins (R108, R110). -/
theorem exec_result_then_flag {n m : Nat} (h : exec i s = .next ((s.setV x b).setV vf f)) (hb : b.toNat = n)
    (hf : f.toNat = m) :
    ∃ t, exec i s = .next t ∧ (x ≠ vf → (t.getV x).toNat = n) ∧ (t.getV vf).toNat = m ∧ Frame [] [x, vf] [] s t := by
  refine ⟨_, h, fun hx => ?result, ?flag, (Frame.refl.setV (by simp) b).setV (by simp) f⟩
  case result => rw [getV_setV_of_ne _ hx, getV_setV_same, hb]
  case flag => rw [getV_setV_same, hf]

end

/-- Settles O31: the one register written is the destination. -/
theorem loadAndAddImmediate : Obligations.LoadAndAddImmediate := by
  refine fun x y nn s => ⟨⟨hasRow_of_rowOf_eq rfl, exec_result rfl⟩, ⟨hasRow_of_rowOf_eq rfl, ?addImm⟩,
    ⟨hasRow_of_rowOf_eq rfl, exec_result rfl⟩⟩
  case addImm =>
    obtain ⟨t, hexec, hsum, hframe⟩ := exec_result (i := .addImm x nn) (s := s) rfl
    exact ⟨t, hexec, hsum ▸ BitVec.toNat_add (s.getV x) nn, hframe⟩

/-- Settles O33: the flag is written before the sum. -/
theorem addSetsCarry : Obligations.AddSetsCarry :=
  fun _ _ _ => ⟨hasRow_of_rowOf_eq rfl, exec_flag_then_result rfl (BitVec.toNat_add _ _) (toNat_carryFlag _ _)⟩

/-- Settles O34: the flag is written before the difference, and the two instructions exchange the operands. -/
theorem subtractSetsNoBorrow : Obligations.SubtractSetsNoBorrow :=
  fun _ _ _ =>
    ⟨⟨hasRow_of_rowOf_eq rfl, exec_flag_then_result rfl (toNat_sub_byte _ _) (toNat_noBorrowFlag _ _)⟩,
      ⟨hasRow_of_rowOf_eq rfl, exec_flag_then_result rfl (toNat_sub_byte _ _) (toNat_noBorrowFlag _ _)⟩⟩

/-- Settles O35: the flag is written after the shifted value. -/
theorem shiftsSetLostBit : Obligations.ShiftsSetLostBit := by
  intro x y s v hv
  rw [← shiftSource_eq] at hv
  subst hv
  exact ⟨⟨hasRow_of_rowOf_eq rfl, exec_result_then_flag rfl (toNat_shiftRight_one _) (toNat_shiftedOutRight _)⟩,
    ⟨hasRow_of_rowOf_eq rfl, exec_result_then_flag rfl (toNat_shiftLeft_one _) (toNat_shiftedOutLeft _)⟩⟩

/-! ## Logic operations (R103 to R105) -/

/-- The three logic operations write a byte of the right bits and then let the quirk clear `VF`. -/
theorem exec_logic {x y : Reg} {i : Instr} {f : Bool → Bool → Bool}
    (h : (i = .orReg x y ∧ f = or) ∨ (i = .andReg x y ∧ f = and) ∨ (i = .xorReg x y ∧ f = xor)) (s : State) :
    ∃ b : Byte, exec i s = .next (vfResetAfter (s.setV x b)) ∧
      ∀ j, b.getLsbD j = f ((s.getV x).getLsbD j) ((s.getV y).getLsbD j) := by
  rcases h with ⟨rfl, rfl⟩ | ⟨rfl, rfl⟩ | ⟨rfl, rfl⟩
  · exact ⟨_, rfl, fun _ => BitVec.getLsbD_or⟩
  · exact ⟨_, rfl, fun _ => BitVec.getLsbD_and⟩
  · exact ⟨_, rfl, fun _ => BitVec.getLsbD_xor⟩

/-- Settles O32: the quirk's write to `VF` comes last, and elsewhere the result stands. -/
theorem logicOperations : Obligations.LogicOperations := by
  intro x y s i f hi
  obtain ⟨b, hexec, hbits⟩ := exec_logic hi s
  refine ⟨⟨hasRow_of_rowOf_eq rfl, hasRow_of_rowOf_eq rfl, hasRow_of_rowOf_eq rfl⟩, _, hexec,
    fun hq => ⟨?cleared, ?frameQuirk⟩, fun hq => ?frame, fun hx j _ => ?bits⟩
  case cleared => rw [vfResetAfter_getV, if_pos ⟨hq, rfl⟩]
  case frameQuirk => exact (Frame.refl.setV (by simp) b).vfResetAfter fun _ => by simp
  case frame =>
    exact (Frame.refl.setV (by simp) b).vfResetAfter fun hq' => absurd hq' (Bool.eq_false_iff.1 hq)
  case bits =>
    have hkept : ¬ (s.quirks.vfReset = true ∧ x = vf) := fun ⟨hq, hvf⟩ =>
      hx.elim (fun hq' => Bool.eq_false_iff.1 hq' hq) fun hne => hne hvf
    rw [vfResetAfter_getV, setV_quirks, if_neg hkept, getV_setV_same, hbits]

/-! ## The random byte (R111) -/

section
variable {s : State}

theorem rngByte_of_cons {b : Byte} {rest : List Byte} (h : s.rngIn = b :: rest) : rngByte s = b := by
  simp only [rngByte, h]

theorem rngByte_of_nil (h : s.rngIn = []) : rngByte s = Config.freeRng s.rngDraws := by
  simp only [rngByte, h]

theorem rngConsume_of_cons {b : Byte} {rest : List Byte} (h : s.rngIn = b :: rest) :
    rngConsume s = { s with rngIn := rest } := by
  simp only [rngConsume, h]

theorem rngConsume_of_nil (h : s.rngIn = []) : rngConsume s = { s with rngDraws := s.rngDraws + 1 } := by
  simp only [rngConsume, h]

end

theorem exec_rnd_eq (s : State) (x : Reg) (nn : Byte) :
    exec (.rnd x nn) s = .next ((rngConsume s).setV x (rngByte s &&& nn)) := rfl

/-- Settles O36: the sample and what it leaves of the input follow the same two cases. -/
theorem randomIsMaskedSample : Obligations.RandomIsMaskedSample := by
  refine fun x nn s => ⟨hasRow_of_rowOf_eq rfl, _, rngByte s, exec_rnd_eq s x nn, getV_setV_same _ x _,
    fun j hj => ?masked, fun b rest hin => ?supplied, fun hin => ?free, ?frame⟩
  case masked => rw [getV_setV_same, BitVec.getLsbD_and, hj, Bool.and_false]
  case supplied =>
    rw [setV_rngIn, setV_rngDraws, rngConsume_of_cons hin]
    exact ⟨rngByte_of_cons hin, rfl, rfl⟩
  case free =>
    rw [setV_rngIn, setV_rngDraws, rngConsume_of_nil hin]
    exact ⟨rngByte_of_nil hin, hin, rfl⟩
  case frame =>
    exact (Frame.refl.rngConsume (List.mem_singleton_self _)).setV (List.mem_singleton_self x) _

end Sys2Proof.Safety

/-! The instructions of spec/43_index_memory.md: the loads of `I`, and the three transfers between registers and memory,
each a range check and then its effect (R48). -/

namespace Sys2Proof.Safety

open Sys2Proof.Machine

/-! ## The loads of `I` (R120 to R122) -/

theorem toNat_wideReg (s : State) (x : Reg) : (wideReg s x).toNat = (s.getV x).toNat :=
  BitVec.toNat_setWidth_of_le (by decide)

theorem toNat_addI_sum (s : State) (x : Reg) : (s.i + wideReg s x).toNat = (s.i.toNat + (s.getV x).toNat) % 65536 := by
  rw [BitVec.toNat_add, toNat_wideReg]

/-- The farthest glyph address is `0x050 + 5 * 0xFF`, which 16 bits hold (R122). -/
theorem toNat_glyphAddr (s : State) (x : Reg) : (glyphAddr s x).toNat = 0x050 + 5 * (s.getV x).toNat := by
  have hbyte := (s.getV x).isLt
  rw [glyphAddr, BitVec.toNat_ofNat, Config.fontBase]
  omega

/-- An instruction whose meaning is a write of `I` changes nothing else. -/
theorem exec_setI {i : Instr} {s : State} {w : Word} {n : Nat} (h : exec i s = .next (s.setI w)) (hw : w.toNat = n) :
    ∃ t, exec i s = .next t ∧ t.i.toNat = n ∧ Frame [.i] [] [] s t :=
  ⟨_, h, hw, Frame.refl.setI (.inl (List.mem_singleton_self _))⟩

/-- Settles O37: each of the three writes `I` alone, and only the sum can wrap. -/
theorem indexRegisterLoads : Obligations.IndexRegisterLoads :=
  fun x nnn s =>
    ⟨⟨hasRow_of_rowOf_eq rfl, exec_setI rfl (toNat_addrOperand nnn)⟩,
      ⟨hasRow_of_rowOf_eq rfl, exec_setI rfl (toNat_addI_sum s x)⟩,
      ⟨hasRow_of_rowOf_eq rfl, exec_setI rfl (toNat_glyphAddr s x)⟩⟩

/-! ## The range check of an access through `I` (R48) -/

section
variable {s : State} {n : Nat}

theorem guardRange_of_gt (h : 0xFFF < s.i.toNat + n) (effect : Outcome) :
    guardRange (indexBase s) (n + 1) s effect = .next { s with report := .memoryFault (max s.i.toNat 0x1000) } :=
  guardRange_of_fault s (rangeFaults_eq_true.2 ⟨Nat.succ_pos n, h⟩) effect

theorem guardRange_of_le (h : s.i.toNat + n ≤ 0xFFF) (effect : Outcome) :
    guardRange (indexBase s) (n + 1) s effect = effect :=
  guardRange_of_ok s (rangeFaults_eq_false.2 (.inr (Nat.succ_le_succ h))) effect

end

/-! ## Decimal digits (R123) -/

/-- Read after a block write that stays in memory, by the offset in the block (R49). -/
theorem read_writeBytes_add (m : Memory) {a k : Nat} {bs : List Byte} (h : a + bs.length ≤ 0x1000)
    (hk : k < bs.length) : (m.writeBytes a bs).read (a + k) = bs.getD k 0 := by
  rw [read_writeBytes bs m a h, if_pos ⟨Nat.le_add_right a k, Nat.add_lt_add_left hk a⟩, Nat.add_sub_cancel_left]

/-- A digit of a byte fits a byte, so the three are stored unreduced (R123). -/
theorem toNat_decimalDigits (b : Byte) :
    ((decimalDigits b).getD 0 0).toNat = b.toNat / 100 ∧ ((decimalDigits b).getD 1 0).toNat = b.toNat / 10 % 10 ∧
      ((decimalDigits b).getD 2 0).toNat = b.toNat % 10 := by
  have hb := b.isLt
  simp only [decimalDigits, List.getD_cons_zero, List.getD_cons_succ, BitVec.toNat_ofNat]
  omega

theorem exec_ldB_of_inRange {x : Reg} {s : State} (h : s.i.toNat + 2 ≤ 0xFFF) :
    exec (.ldB x) s = .next (s.setMem (s.mem.writeBytes (indexBase s) (decimalDigits (s.getV x)))) :=
  guardRange_of_le h _

/-- Settles O38: the digits are stored at the offsets 0, 1 and 2 of a block of three bytes. -/
theorem decimalDigitsAreStored : Obligations.DecimalDigitsAreStored := by
  refine fun x s => ⟨hasRow_of_rowOf_eq rfl, fun hout => guardRange_of_gt hout _, fun hin => ?store⟩
  case store =>
    have hread {k : Nat} (hk : k < 3) :
        (s.mem.writeBytes (indexBase s) (decimalDigits (s.getV x))).read (s.i.toNat + k) =
          (decimalDigits (s.getV x)).getD k 0 :=
      read_writeBytes_add s.mem (Nat.succ_le_succ hin) hk
    obtain ⟨hhundreds, htens, hones⟩ := toNat_decimalDigits (s.getV x)
    refine ⟨_, exec_ldB_of_inRange hin, ?hundreds, ?tens, ?ones, ?frame⟩
    case hundreds => rw [← hhundreds, ← hread (by decide), setMem_mem, Nat.add_zero]
    case tens => rw [← htens, ← hread (by decide), setMem_mem]
    case ones => rw [← hones, ← hread (by decide), setMem_mem]
    case frame => exact Frame.refl.writeBytes fun _ hge hlt => mem_writtenBytes (i := .ldB x) hge hlt

/-! ## Block transfers (R124, R125) -/

section
variable {x : Reg} {s : State}

/-- `I` after a block transfer in memory is at most `0x1000`, so it does not wrap (R124, R125). -/
theorem toNat_blockIndex (h : s.i.toNat + x.val ≤ 0xFFF) :
    (blockIndex s x).toNat = if s.quirks.legacy = true then s.i.toNat + x.val + 1 else s.i.toNat := by
  rw [blockIndex]
  split
  · rw [BitVec.toNat_add, BitVec.toNat_ofNat, blockLen]
    omega
  · rfl

theorem exec_loadRegs_of_inRange (h : s.i.toNat + x.val ≤ 0xFFF) :
    exec (.loadRegs x) s = .next { s with v := blockLoaded s x (indexBase s), i := blockIndex s x } :=
  guardRange_of_le h _

end

/-- Settles O39: the stored block holds `V[q]` at offset `q`, and its addresses are those the frame names. -/
theorem blockStore : Obligations.BlockStore := by
  refine fun x s => ⟨hasRow_of_rowOf_eq rfl, fun hout => guardRange_of_gt hout _, fun hin =>
    ⟨_, exec_storeRegs_of_inRange hin, fun k hk => read_writeBytes_blockRegs hin hk, toNat_blockIndex hin, ?frame⟩⟩
  case frame =>
    refine Frame.setI (Frame.refl.writeBytes ?_) (.inl (List.mem_singleton_self _))
    rw [blockRegs_length]
    exact fun _ hge hlt => mem_writtenBytes (i := .storeRegs x) hge hlt

/-- Settles O40: a register up to `x` is read from its offset in the block, and the frame names no other. -/
theorem blockLoad : Obligations.BlockLoad := by
  refine fun x s => ⟨hasRow_of_rowOf_eq rfl, fun hout => guardRange_of_gt hout _, fun hin =>
    ⟨_, exec_loadRegs_of_inRange hin, fun k hk => (blockLoaded_getElem s x _ k).trans (if_pos hk),
      toNat_blockIndex hin, ?frame⟩⟩
  case frame =>
    refine Frame.setI (Frame.refl.withV fun r hr => ?_) (.inl (List.mem_singleton_self _))
    have hgt : ¬ r ≤ x := fun hle => hr (mem_loadedRegs (i := .loadRegs x).2 ⟨x, rfl, hle⟩)
    exact (blockLoaded_getElem s x _ r).trans (if_neg hgt)

/-- Settles O41: the load reads back the block that the store wrote, since nothing between them writes memory. -/
theorem storeThenLoadReturnsRegisters : Obligations.StoreThenLoadReturnsRegisters := by
  intro x s v hin
  refine ⟨_, _, exec_storeRegs_of_inRange hin, exec_loadRegs_of_inRange hin, fun k => ?_⟩
  refine (blockLoaded_getElem _ x _ k).trans ?_
  by_cases hk : k ≤ x
  · rw [if_pos hk, if_pos hk]
    exact read_writeBytes_blockRegs hin hk
  · rw [if_neg hk, if_neg hk]
    rfl

end Sys2Proof.Safety

/-! The sprite draw `Dxyn` (spec/44_draw.md). Every sprite pixel flips at most one logical pixel and no two flip the
same one (R133), so the loops of R136 toggle each backing pixel at most once, and each collision test reads the picture as it
was before the draw. -/

namespace Sys2Proof.Machine

/-! ## Pictures that differ in a set of logical pixels (R134) -/

/-- The side of a logical pixel in backing pixels (R134). -/
def logicalSide : DisplayMode → Nat
  | .lores => 2
  | .hires => 1

theorem covers_iff (mode : DisplayMode) (tx ty X Y : Nat) :
    covers mode tx ty X Y = true ↔ X / logicalSide mode = tx ∧ Y / logicalSide mode = ty := by
  cases mode <;> simp [covers, logicalSide]

theorem logicalHit_eq (mode : DisplayMode) (fb : FrameBuffer) (tx ty : Nat) :
    logicalHit mode fb tx ty = fbPixel fb (logicalSide mode * tx) (logicalSide mode * ty) := by
  cases mode <;> simp [logicalHit, logicalSide]

/-- `fb'` is `fb` with every backing pixel of the logical pixels in `P` toggled, and no other. -/
def Toggles (mode : DisplayMode) (P : Nat → Nat → Prop) (fb fb' : FrameBuffer) : Prop :=
  ∀ X Y, fbPixel fb' X Y ≠ fbPixel fb X Y ↔ P (X / logicalSide mode) (Y / logicalSide mode)

/-- A bit that two steps change at most once is changed when one of them changes it. -/
theorem ne_iff_ne_or_ne : ∀ {a b c : Bool}, (b ≠ a → ¬ c ≠ b) → (c ≠ a ↔ b ≠ a ∨ c ≠ b) := by decide

/-- A bit that two steps both change or both keep is as it was. -/
theorem eq_of_ne_iff_ne : ∀ {a b c : Bool}, (c ≠ b ↔ b ≠ a) → c = a := by decide

section
variable {mode : DisplayMode} {P Q : Nat → Nat → Prop} {fb fb' fb'' : FrameBuffer}

theorem Toggles.of_empty (h : ∀ tx ty, ¬ P tx ty) : Toggles mode P fb fb :=
  fun _ _ => iff_of_false (fun hne => hne rfl) (h _ _)

theorem Toggles.of_logicalFlip {tx ty : Nat} (hx : tx < gridWidth mode) (hy : ty < gridHeight mode)
    (hP : ∀ lx ly, P lx ly ↔ lx = tx ∧ ly = ty) : Toggles mode P fb (logicalFlip mode fb tx ty) := by
  intro X Y
  rw [hP, ← covers_iff, fbPixel_logicalFlip mode fb hx hy]
  cases fbPixel fb X Y <;> simp

/-- Toggling disjoint sets one after the other toggles their union. -/
theorem Toggles.trans (h : Toggles mode P fb fb') (h' : Toggles mode Q fb' fb'')
    (hdisj : ∀ tx ty, P tx ty → ¬ Q tx ty) : Toggles mode (fun tx ty => P tx ty ∨ Q tx ty) fb fb'' := by
  intro X Y
  have hnotBoth : fbPixel fb' X Y ≠ fbPixel fb X Y → ¬ fbPixel fb'' X Y ≠ fbPixel fb' X Y := by
    rw [h X Y, h' X Y]
    exact hdisj _ _
  exact (ne_iff_ne_or_ne hnotBoth).trans (or_congr (h X Y) (h' X Y))

/-- Toggling the same set twice restores the picture. -/
theorem Toggles.eq_of_twice (h : Toggles mode P fb fb') (h' : Toggles mode P fb' fb'') : fb'' = fb :=
  fb_eq_of_pixels fun X Y _ _ => eq_of_ne_iff_ne ((h' X Y).trans (h X Y).symm)

/-- A logical pixel outside the toggled set collides as before. -/
theorem Toggles.logicalHit_eq (h : Toggles mode P fb fb') {tx ty : Nat} (hP : ¬ P tx ty) :
    logicalHit mode fb' tx ty = logicalHit mode fb tx ty := by
  have hside : 0 < logicalSide mode := by cases mode <;> decide
  have hpixel := h (logicalSide mode * tx) (logicalSide mode * ty)
  rw [Nat.mul_div_cancel_left tx hside, Nat.mul_div_cancel_left ty hside] at hpixel
  rw [Machine.logicalHit_eq, Machine.logicalHit_eq]
  exact not_ne_iff.1 (hpixel.not.2 hP)

/-- A loop whose steps toggle pairwise disjoint sets toggles their union. -/
theorem Toggles.foldl_range {α : Type} {f : FrameBuffer × α → Nat → FrameBuffer × α} {P : Nat → Nat → Nat → Prop}
    {n : Nat} (hstep : ∀ acc k, k < n → Toggles mode (P k) acc.1 (f acc k).1)
    (honce : ∀ j k tx ty, j < n → k < n → P j tx ty → P k tx ty → j = k) (acc : FrameBuffer × α) :
    Toggles mode (fun tx ty => ∃ k, k < n ∧ P k tx ty) acc.1 ((List.range n).foldl f acc).1 := by
  induction n with
  | zero => exact Toggles.of_empty fun _ _ ⟨_, hk, _⟩ => absurd hk (Nat.not_lt_zero _)
  | succ n ih =>
    have hbefore := ih (fun acc k hk => hstep acc k (hk.trans_le n.le_succ))
      fun j k tx ty hj hk => honce j k tx ty (hj.trans_le n.le_succ) (hk.trans_le n.le_succ)
    have hlast := hstep ((List.range n).foldl f acc) n n.lt_succ_self
    have hdisj : ∀ tx ty, (∃ k, k < n ∧ P k tx ty) → ¬ P n tx ty := fun tx ty ⟨k, hk, hkP⟩ hnP =>
      hk.ne (honce k n tx ty (hk.trans_le n.le_succ) n.lt_succ_self hkP hnP)
    rw [List.range_succ, List.foldl_concat]
    simp only [Nat.exists_lt_succ_right]
    exact hbefore.trans hlast hdisj

end

/-! ## One sprite pixel -/

/-- The sprite is drawn on the whole grid of its mode and is no wider and no taller than it (R131). -/
structure FitsGrid (sp : Sprite) : Prop where
  width : sp.width = gridWidth sp.mode
  height : sp.height = gridHeight sp.mode
  columns : 8 * sp.rowBytes ≤ sp.width
  rows : sp.rows ≤ sp.height

theorem spriteOf_fitsGrid (x y : Reg) (n : Fin 16) (s : State) : FitsGrid (spriteOf x y n s) := by
  obtain ⟨hrows, hbytes, hwidth, hheight⟩ := spriteOf_fits x y n s
  exact ⟨rfl, rfl, by omega, by omega⟩

/-- Sprite pixel `(c, r)` is a 1 bit and lands on the logical pixel `(tx, ty)` (R131, R133). -/
def FlipsAt (sp : Sprite) (m : Memory) (r c tx ty : Nat) : Prop :=
  spriteBit sp m r c = true ∧ spriteTarget sp r c = some (tx, ty)

/-- Some pixel of sprite row `r` flips the logical pixel `(tx, ty)`. -/
def RowFlipsAt (sp : Sprite) (m : Memory) (r tx ty : Nat) : Prop :=
  ∃ c, c < 8 * sp.rowBytes ∧ FlipsAt sp m r c tx ty

/-- Some pixel of the sprite flips the logical pixel `(tx, ty)`. -/
def SpriteFlipsAt (sp : Sprite) (m : Memory) (tx ty : Nat) : Prop :=
  ∃ r, r < sp.rows ∧ RowFlipsAt sp m r tx ty

/-- One round of the loop over the rows, as `drawSprite` folds it: a row drawn, and its collision counted (R136). -/
def drawRowCounted (sp : Sprite) (m : Memory) (acc : FrameBuffer × Nat) (r : Nat) : FrameBuffer × Nat :=
  ((drawRow sp m acc.1 r).1, acc.2 + (drawRow sp m acc.1 r).2.toNat)

section
variable {sp : Sprite} {m : Memory}

/-- A drawn pixel marks its row when it lands on a pixel that is on (R134). -/
theorem drawPixel_snd_iff (r c : Nat) (acc : FrameBuffer × Bool) :
    (drawPixel sp m r acc c).2 = true ↔
      acc.2 = true ∨ ∃ tx ty, FlipsAt sp m r c tx ty ∧ logicalHit sp.mode acc.1 tx ty = true := by
  rcases drawPixel_cases sp m r c acc with ⟨hbit, e⟩ | ⟨htarget, e⟩ | ⟨tx, ty, hbit, htarget, e⟩
  · simp [e, FlipsAt, hbit]
  · simp [e, FlipsAt, htarget]
  · simp [e, FlipsAt, hbit, htarget]

variable (hfit : FitsGrid sp)
include hfit

theorem FlipsAt.in_grid {r c tx ty : Nat} (h : FlipsAt sp m r c tx ty) :
    tx < gridWidth sp.mode ∧ ty < gridHeight sp.mode := by
  have hpos : 0 < gridWidth sp.mode ∧ 0 < gridHeight sp.mode := by cases sp.mode <;> decide
  rw [← hfit.width, ← hfit.height] at hpos ⊢
  exact spriteTarget_in_grid hpos.1 hpos.2 h.2

/-- No two sprite pixels flip the same logical pixel (R133). -/
theorem FlipsAt.inj {r c r' c' tx ty : Nat} (hr : r < sp.rows) (hr' : r' < sp.rows) (hc : c < 8 * sp.rowBytes)
    (hc' : c' < 8 * sp.rowBytes) (h : FlipsAt sp m r c tx ty) (h' : FlipsAt sp m r' c' tx ty) : r = r' ∧ c = c' :=
  spriteTarget_inj (hr.trans_le hfit.rows) (hr'.trans_le hfit.rows) (hc.trans_le hfit.columns)
    (hc'.trans_le hfit.columns) h.2 h'.2

theorem drawPixel_toggles (r c : Nat) (acc : FrameBuffer × Bool) :
    Toggles sp.mode (FlipsAt sp m r c) acc.1 (drawPixel sp m r acc c).1 := by
  rcases drawPixel_cases sp m r c acc with ⟨hbit, e⟩ | ⟨htarget, e⟩ | ⟨tx, ty, hbit, htarget, e⟩
  · rw [e]
    exact Toggles.of_empty fun tx ty h => absurd h.1 (by simp [hbit])
  · rw [e]
    exact Toggles.of_empty fun tx ty h => absurd h.2 (by simp [htarget])
  · obtain ⟨hx, hy⟩ := FlipsAt.in_grid hfit ⟨hbit, htarget⟩
    rw [e]
    refine Toggles.of_logicalFlip hx hy fun lx ly => ?_
    simp [FlipsAt, hbit, htarget, eq_comm]

/-! ## One sprite row -/

section
variable {r : Nat} (hr : r < sp.rows)
include hr

theorem drawPixels_toggles {k : Nat} (hk : k ≤ 8 * sp.rowBytes) (fb : FrameBuffer) :
    Toggles sp.mode (fun tx ty => ∃ c, c < k ∧ FlipsAt sp m r c tx ty) fb
      ((List.range k).foldl (drawPixel sp m r) (fb, false)).1 :=
  Toggles.foldl_range (fun acc c _ => drawPixel_toggles hfit r c acc)
    (fun _ _ _ _ hc hc' h h' => (FlipsAt.inj hfit hr hr (hc.trans_le hk) (hc'.trans_le hk) h h').2) (fb, false)

theorem drawRow_toggles (fb : FrameBuffer) : Toggles sp.mode (RowFlipsAt sp m r) fb (drawRow sp m fb r).1 :=
  drawPixels_toggles hfit hr le_rfl fb

/-- The collisions of a row's first pixels are judged on the picture before the row: the pixels already drawn flipped
others. -/
theorem drawPixels_snd_iff {k : Nat} (hk : k ≤ 8 * sp.rowBytes) (fb : FrameBuffer) :
    ((List.range k).foldl (drawPixel sp m r) (fb, false)).2 = true ↔
      ∃ c, c < k ∧ ∃ tx ty, FlipsAt sp m r c tx ty ∧ logicalHit sp.mode fb tx ty = true := by
  induction k with
  | zero => simp
  | succ k ih =>
    have hk' : k ≤ 8 * sp.rowBytes := k.le_succ.trans hk
    have hfresh : ∀ tx ty, FlipsAt sp m r k tx ty → ¬ ∃ c, c < k ∧ FlipsAt sp m r c tx ty :=
      fun tx ty h ⟨c, hc, h'⟩ => hc.ne (FlipsAt.inj hfit hr hr (hc.trans_le hk') hk h' h).2
    rw [List.range_succ, List.foldl_concat, drawPixel_snd_iff, ih hk', Nat.exists_lt_succ_right]
    refine or_congr_right (exists₂_congr fun tx ty => and_congr_right fun h => ?_)
    rw [(drawPixels_toggles hfit hr hk' fb).logicalHit_eq (hfresh tx ty h)]

/-- A row collides when it flips a pixel that is on before the row is drawn (R135). -/
theorem drawRow_snd_iff (fb : FrameBuffer) :
    (drawRow sp m fb r).2 = true ↔
      ∃ c, c < 8 * sp.rowBytes ∧ ∃ tx ty, FlipsAt sp m r c tx ty ∧ logicalHit sp.mode fb tx ty = true :=
  drawPixels_snd_iff hfit hr le_rfl fb

/-- Whether a row collides does not change when other pixels than its own are toggled. -/
theorem drawRow_snd_of_toggles {P : Nat → Nat → Prop} {fb fb' : FrameBuffer} (h : Toggles sp.mode P fb fb')
    (hP : ∀ tx ty, RowFlipsAt sp m r tx ty → ¬ P tx ty) : (drawRow sp m fb' r).2 = (drawRow sp m fb r).2 := by
  rw [Bool.eq_iff_iff, drawRow_snd_iff hfit hr, drawRow_snd_iff hfit hr]
  exact exists_congr fun c => and_congr_right fun hc => exists₂_congr fun tx ty => and_congr_right fun hflips => by
    rw [h.logicalHit_eq (hP tx ty ⟨c, hc, hflips⟩)]

end

/-! ## The rows of a sprite -/

/-- No two rows flip the same logical pixel (R133). -/
theorem RowFlipsAt.inj {r r' tx ty : Nat} (hr : r < sp.rows) (hr' : r' < sp.rows) (h : RowFlipsAt sp m r tx ty)
    (h' : RowFlipsAt sp m r' tx ty) : r = r' := by
  obtain ⟨c, hc, hflips⟩ := h
  obtain ⟨c', hc', hflips'⟩ := h'
  exact (FlipsAt.inj hfit hr hr' hc hc' hflips hflips').1

/-- The loop over the first `k` rows toggles the pixels that these rows flip. -/
theorem drawRows_toggles {k : Nat} (hk : k ≤ sp.rows) (fb : FrameBuffer) :
    Toggles sp.mode (fun tx ty => ∃ r, r < k ∧ RowFlipsAt sp m r tx ty) fb
      ((List.range k).foldl (drawRowCounted sp m) (fb, 0)).1 :=
  Toggles.foldl_range (f := drawRowCounted sp m) (P := RowFlipsAt sp m)
    (fun acc _ hr => drawRow_toggles hfit (hr.trans_le hk) acc.1)
    (fun _ _ _ _ hr hr' => RowFlipsAt.inj hfit (hr.trans_le hk) (hr'.trans_le hk)) (fb, 0)

/-- The loop counts the rows that collide with the picture before the sprite: the rows already drawn flipped other
pixels. -/
theorem drawRows_snd {k : Nat} (hk : k ≤ sp.rows) (fb : FrameBuffer) :
    ((List.range k).foldl (drawRowCounted sp m) (fb, 0)).2 = Nat.count (fun r => (drawRow sp m fb r).2 = true) k := by
  induction k with
  | zero => simp
  | succ k ih =>
    have hk' : k ≤ sp.rows := k.le_succ.trans hk
    have hfresh : ∀ tx ty, RowFlipsAt sp m k tx ty → ¬ ∃ r, r < k ∧ RowFlipsAt sp m r tx ty :=
      fun tx ty h ⟨r, hr, h'⟩ => hr.ne (RowFlipsAt.inj hfit (hr.trans_le hk') hk h' h)
    rw [List.range_succ, List.foldl_concat, drawRowCounted, ih hk', Nat.count_succ,
      drawRow_snd_of_toggles hfit hk (drawRows_toggles hfit hk' fb) hfresh,
      Bool.toNat, Bool.cond_eq_ite]

/-- A draw toggles the pixels that its sprite flips (R134). -/
theorem drawSprite_toggles (fb : FrameBuffer) : Toggles sp.mode (SpriteFlipsAt sp m) fb (drawSprite sp m fb).1 :=
  drawRows_toggles hfit le_rfl fb

/-- A draw counts the rows that collide with the picture before it (R135). -/
theorem drawSprite_snd (fb : FrameBuffer) :
    (drawSprite sp m fb).2 = Nat.count (fun r => (drawRow sp m fb r).2 = true) sp.rows :=
  drawRows_snd hfit le_rfl fb

end

end Sys2Proof.Machine

/-! The statements about `Dxyn`: the closed form of R131, R133 and R134 in terms of the sprite that the loops draw, and
the draw as one update of the state. -/

namespace Sys2Proof.Safety

open Sys2Proof.Machine

section
variable (x y : Reg) (n : Fin 16) (s : State)

/-! ## The geometry of the sprite (R131) -/

theorem spriteOf_rows : (spriteOf x y n s).rows = drawRows n s := by
  cases h : s.mode <;> simp [spriteOf, spriteRows, drawRows, h]

theorem spriteOf_rowBytes : (spriteOf x y n s).rowBytes = drawRowBytes n s := by
  cases h : s.mode <;> simp [spriteOf, spriteRowBytes, drawRowBytes, h]

theorem gridWidth_mode : gridWidth s.mode = drawWidth s := by
  cases h : s.mode <;> simp [gridWidth, drawWidth, h, Config.loresWidth, Config.fbWidth]

theorem gridHeight_mode : gridHeight s.mode = drawHeight s := by
  cases h : s.mode <;> simp [gridHeight, drawHeight, h, Config.loresHeight, Config.fbHeight]

theorem logicalSide_mode : logicalSide s.mode = pixelSide s := by
  cases h : s.mode <;> simp [logicalSide, pixelSide, h]

/-- The logical pixel of a backing pixel lies on the logical grid (R134). -/
theorem div_pixelSide_lt {X Y : Nat} (hX : X < 128) (hY : Y < 64) :
    X / pixelSide s < drawWidth s ∧ Y / pixelSide s < drawHeight s := by
  unfold pixelSide drawWidth drawHeight
  split <;> omega

/-! ## Which pixels the sprite flips (R131, R133) -/

theorem spriteBit_spriteOf (r c : Nat) : spriteBit (spriteOf x y n s) s.mem r c = true ↔ SpriteLit n s r c := by
  rw [spriteBit, spriteOf_rowBytes]
  rfl

/-- A sprite pixel has a target when the place it lands on is on the logical grid, where wrapping always puts it. -/
theorem spriteTarget_spriteOf (r c lx ly : Nat) :
    spriteTarget (spriteOf x y n s) r c = some (lx, ly) ↔
      lx < drawWidth s ∧ ly < drawHeight s ∧ Lands x y s r c lx ly := by
  have hpos : 0 < drawWidth s ∧ 0 < drawHeight s := by unfold drawWidth drawHeight; split <;> decide
  simp only [spriteTarget, Lands, spriteOf, gridWidth_mode, gridHeight_mode]
  by_cases hclip : s.quirks.clipping = true
  · rw [if_pos hclip, if_pos hclip]
    split
    · simp only [reduceCtorEq, false_iff]
      omega
    · simp only [Option.some.injEq, Prod.mk.injEq]
      omega
  · rw [if_neg hclip, if_neg hclip]
    simp only [Option.some.injEq, Prod.mk.injEq]
    constructor
    · rintro ⟨rfl, rfl⟩
      exact ⟨Nat.mod_lt _ hpos.1, Nat.mod_lt _ hpos.2, rfl, rfl⟩
    · rintro ⟨-, -, rfl, rfl⟩
      exact ⟨rfl, rfl⟩

theorem flipsAt_spriteOf (r c lx ly : Nat) :
    FlipsAt (spriteOf x y n s) s.mem r c lx ly ↔
      lx < drawWidth s ∧ ly < drawHeight s ∧ SpriteLit n s r c ∧ Lands x y s r c lx ly := by
  rw [FlipsAt, spriteBit_spriteOf, spriteTarget_spriteOf]
  tauto

/-- On the logical grid the sprite flips what some 1 bit of it lands on. -/
theorem spriteFlipsAt_spriteOf {lx ly : Nat} (hx : lx < drawWidth s) (hy : ly < drawHeight s) :
    SpriteFlipsAt (spriteOf x y n s) s.mem lx ly ↔
      ∃ r c, r < drawRows n s ∧ c < 8 * drawRowBytes n s ∧ SpriteLit n s r c ∧ Lands x y s r c lx ly := by
  simp only [SpriteFlipsAt, RowFlipsAt, flipsAt_spriteOf, spriteOf_rows, spriteOf_rowBytes, hx, hy, true_and,
    exists_and_left]

/-- The loops' collision of a row is the closed form's (R135). -/
theorem drawRow_snd_spriteOf {r : Nat} (hr : r < drawRows n s) :
    (drawRow (spriteOf x y n s) s.mem s.fb r).2 = true ↔ RowCollides x y n s r := by
  have hr' : r < (spriteOf x y n s).rows := hr.trans_eq (spriteOf_rows x y n s).symm
  have hhit (lx ly : Nat) : logicalHit (spriteOf x y n s).mode s.fb lx ly =
      fbPixel s.fb (pixelSide s * lx) (pixelSide s * ly) :=
    logicalSide_mode s ▸ logicalHit_eq s.mode s.fb lx ly
  rw [drawRow_snd_iff (spriteOf_fitsGrid x y n s) hr', RowCollides]
  simp only [flipsAt_spriteOf, spriteOf_rowBytes, hhit, exists_and_left, and_assoc]

/-! ## The instruction as an update of the state -/

theorem rangeFaults_sprite : rangeFaults (indexBase s) (spriteLen (spriteOf x y n s)) = false ↔ SpriteInRange n s := by
  rw [rangeFaults_eq_false, spriteLen, spriteOf_rows, spriteOf_rowBytes]
  rfl

theorem exec_drw_of_inRange {n : Fin 16} {s : State} (h : SpriteInRange n s) :
    exec (.drw x y n) s = .next (drawInto (spriteOf x y n s) s) :=
  guardRange_of_ok s ((rangeFaults_sprite x y n s).2 h) _

theorem exec_drw_of_not_inRange {n : Fin 16} {s : State} (h : ¬ SpriteInRange n s) :
    exec (.drw x y n) s = .next { s with report := .memoryFault (max s.i.toNat 0x1000) } :=
  guardRange_of_fault s (Bool.not_eq_false _ ▸ (rangeFaults_sprite x y n s).not.2 h) _

/-- The draw of a sprite in any state, the one it was read from or a later one (R134). -/
theorem drawInto_toggles (s' : State) :
    Toggles s.mode (SpriteFlipsAt (spriteOf x y n s) s'.mem) s'.fb (drawInto (spriteOf x y n s) s').fb :=
  drawSprite_toggles (spriteOf_fitsGrid x y n s) s'.fb

/-! ## The collision count (R135) -/

/-- The number of rows of a property, as the cardinality of the set of them. -/
theorem count_eq_ncard {p : Nat → Prop} [DecidablePred p] (k : Nat) :
    Nat.count p k = Set.ncard { r | r < k ∧ p r } := by
  rw [Nat.count_eq_card_filter_range, ← Set.ncard_coe_finset]
  simp

/-- The loops count the rows that collide. -/
theorem drawSprite_snd_spriteOf : (drawSprite (spriteOf x y n s) s.mem s.fb).2 =
    Set.ncard { r | r < drawRows n s ∧ RowCollides x y n s r } := by
  rw [drawSprite_snd (spriteOf_fitsGrid x y n s), spriteOf_rows, count_eq_ncard]
  exact congrArg Set.ncard (Set.ext fun r => and_congr_right (drawRow_snd_spriteOf x y n s))

theorem drawSprite_snd_le : (drawSprite (spriteOf x y n s) s.mem s.fb).2 ≤ 16 := by
  rw [drawSprite_snd (spriteOf_fitsGrid x y n s)]
  exact (Nat.count_le ..).trans (spriteOf_fits x y n s).1

theorem drawSprite_snd_pos_iff : 0 < (drawSprite (spriteOf x y n s) s.mem s.fb).2 ↔
    ∃ r, r < drawRows n s ∧ RowCollides x y n s r := by
  rw [drawSprite_snd (spriteOf_fitsGrid x y n s), spriteOf_rows, Nat.pos_iff_ne_zero, Nat.count_ne_iff_exists]
  exact exists_congr fun r => and_congr_right (drawRow_snd_spriteOf x y n s)

theorem drawInto_getV_vf : (drawInto (spriteOf x y n s) s).getV vf =
    collisionFlag s.mode (drawSprite (spriteOf x y n s) s.mem s.fb).2 :=
  (drawInto_getV _ s vf).trans (if_pos rfl)

end

/-- Settles O43: the range check of the whole sprite comes before the two writes. -/
theorem drawFrameAndFault : Obligations.DrawFrameAndFault :=
  fun x y _ _ => ⟨hasRow_of_rowOf_eq rfl, exec_drw_of_not_inRange x y, fun hin =>
    ⟨_, exec_drw_of_inRange x y hin, Frame.refl.drawInto (List.mem_singleton_self _) (List.mem_singleton_self _) _⟩⟩

/-- Settles O44: the draw toggles the logical pixels that its sprite flips. -/
theorem drawTogglesSpritePixels : Obligations.DrawTogglesSpritePixels := by
  refine fun x y n s hin => ⟨_, exec_drw_of_inRange x y hin, fun X Y hX hY => ?_⟩
  obtain ⟨hx, hy⟩ := div_pixelSide_lt s hX hY
  rw [← spriteFlipsAt_spriteOf x y n s hx hy, ← logicalSide_mode]
  exact drawInto_toggles x y n s s X Y

/-- Settles O45: the flag is computed from the number of collided rows, at most 16 of them. -/
theorem drawCountsCollisions : Obligations.DrawCountsCollisions := by
  refine fun x y n s hin => ⟨_, exec_drw_of_inRange x y hin, fun hmode => ?hires, fun hmode => ?lores⟩
  case hires =>
    have hbyte : (drawSprite (spriteOf x y n s) s.mem s.fb).2 < 256 :=
      (drawSprite_snd_le x y n s).trans_lt (by decide)
    rw [drawInto_getV_vf, hmode, collisionFlag, BitVec.toNat_ofNat, Nat.mod_eq_of_lt hbyte, drawSprite_snd_spriteOf]
  case lores =>
    rw [drawInto_getV_vf, hmode, collisionFlag]
    by_cases hhit : ∃ r, r < drawRows n s ∧ RowCollides x y n s r
    · rw [decide_eq_true ((drawSprite_snd_pos_iff x y n s).2 hhit)]
      exact .inl ⟨rfl, hhit⟩
    · rw [decide_eq_false ((drawSprite_snd_pos_iff x y n s).not.2 hhit)]
      exact .inr ⟨rfl, fun r hr hcollides => hhit ⟨r, hr, hcollides⟩⟩

/-- Settles O46: the second draw has the operands of the first and toggles the same pixels; a draw that reports leaves
the picture alone both times. -/
theorem drawTwiceRestoresPicture : Obligations.DrawTwiceRestoresPicture := by
  intro x y n s hx hy
  by_cases hin : SpriteInRange n s
  · have hsame : spriteOf x y n (drawInto (spriteOf x y n s) s) = spriteOf x y n s := by
      simp only [spriteOf, drawInto_getV, if_neg hx, if_neg hy]
      rfl
    refine ⟨_, _, exec_drw_of_inRange x y hin, exec_drw_of_inRange x y hin, ?_⟩
    rw [hsame]
    exact (drawInto_toggles x y n s s).eq_of_twice (drawInto_toggles x y n s _)
  · exact ⟨_, _, exec_drw_of_not_inRange x y hin, exec_drw_of_not_inRange x y hin, rfl⟩

end Sys2Proof.Safety

/-! The instructions of spec/45_keypad_timers.md: the skips on a key (R140, R141), the key wait and the step that waits
in it (R143), and the transfers of the timers with the tone that follows a write of `ST` (R142, R144, R145). -/

namespace Sys2Proof.Safety

open Sys2Proof.Machine

/-- Settles O47: both skips look at the same key, one of them for its absence. -/
theorem keySkips : Obligations.KeySkips := by
  rintro x s k rfl
  refine ⟨⟨hasRow_of_rowOf_eq rfl, ?skp⟩, ⟨hasRow_of_rowOf_eq rfl, ?sknp⟩⟩
  case skp => exact exec_skip rfl Iff.rfl
  case sknp =>
    have hup : (!keyDown s (keyIndex s x)) = true ↔ ¬ s.keys.getLsbD ((s.getV x).toNat % 16) = true :=
      Bool.not_iff_not
    simpa only [ite_not] using exec_skip rfl hup

/-! ## The key wait (R143) -/

section
variable {s : State}

theorem lowestKey_eq_none_iff_keys : lowestKey s = none ↔ s.keys = 0 :=
  (lowestKey_eq_none s).trans (keys_eq_zero_iff s).symm

theorem exec_ldVxK_of_no_key (h : s.keys = 0) (x : Reg) : exec (.ldVxK x) s = .next (s.setPc (s.pc - 2)) := by
  rcases execLdVxK_cases x s with ⟨-, e⟩ | ⟨k, hk, -⟩
  · exact e
  · cases hk.symm.trans (lowestKey_eq_none_iff_keys.2 h)

theorem exec_ldVxK_of_key (h : s.keys ≠ 0) (x : Reg) :
    ∃ k, lowestKey s = some k ∧ exec (.ldVxK x) s = .next (s.setV x (BitVec.ofNat 8 k.val)) :=
  (execLdVxK_cases x s).resolve_left fun ⟨hnone, _⟩ => h (lowestKey_eq_none_iff_keys.1 hnone)

end

/-- A key number fits a byte, so the register holds it unreduced. -/
theorem toNat_getV_setV_key (s : State) (x : Reg) (k : Fin 16) :
    ((s.setV x (BitVec.ofNat 8 k.val)).getV x).toNat = k.val := by
  rw [getV_setV_same, BitVec.toNat_ofNat, Nat.mod_eq_of_lt (k.isLt.trans (by decide))]

/-- Settles O48: the stored number is that of the least pressed key. -/
theorem keyWaitRetriesOrStores : Obligations.KeyWaitRetriesOrStores := by
  refine fun x s => ⟨hasRow_of_rowOf_eq rfl, fun hnone => ?retry, fun hsome => ?store⟩
  case retry => exact ⟨_, exec_ldVxK_of_no_key hnone x, rfl, Frame.refl.setPc (List.mem_singleton_self _) _⟩
  case store =>
    obtain ⟨k, hk, hexec⟩ := exec_ldVxK_of_key hsome x
    obtain ⟨hdown, hleast⟩ := lowestKey_eq_some s hk
    refine ⟨_, hexec, ?_, ?_, Frame.refl.setV (List.mem_singleton_self _) _⟩ <;> rw [toNat_getV_setV_key]
    · exact hdown
    · exact fun j hj => hleast ⟨j, hj.trans k.isLt⟩ hj

/-- Settles O49: the wait takes back the fetch-advance, and the report that it clears was clear. -/
theorem waitingStepStaysPut : Obligations.WaitingStepStaysPut := by
  intro s x hrun hpc hreport hkeys hd
  have hback : (fetchAdvance s).setPc ((fetchAdvance s).pc - 2) = s := by
    rw [fetchAdvance_pc, BitVec.add_sub_cancel, fetchAdvance, ← hreport]
    rfl
  calc step s = exec (.ldVxK x) (fetchAdvance s) := step_of_decoded hrun ((fetchFaults_eq_false s).2 hpc) hd
    _ = .next ((fetchAdvance s).setPc ((fetchAdvance s).pc - 2)) := exec_ldVxK_of_no_key (s := fetchAdvance s) hkeys x
    _ = .next s := congrArg _ hback

/-! ## The timers and the tone (R32, R142, R144, R145, R160) -/

theorem toNat_countDown (b : Byte) : (countDown b).toNat = b.toNat - 1 := by
  unfold countDown
  split
  · next h => rw [h]; rfl
  · next h => bv_omega

theorem tickEvent_of_running {s : State} (h : s.run = .running) :
    tickEvent s = { s with dt := countDown s.dt, st := countDown s.st } := by
  simp only [tickEvent, h]

theorem toNat_st_iterate_tickEvent (k : Nat) {s : State} (hrun : s.run = .running) :
    (tickEvent^[k] s).st.toNat = s.st.toNat - k := by
  induction k generalizing s with
  | zero => rfl
  | succ k ih =>
    have hrun' : (tickEvent s).run = .running := by rw [tickEvent_of_running hrun, hrun]
    have hst : (tickEvent s).st.toNat = s.st.toNat - 1 := by rw [tickEvent_of_running hrun, toNat_countDown]
    rw [Function.iterate_succ_apply, ih hrun', hst, Nat.sub_sub, Nat.add_comm]

/-- The tone of a running machine lasts for as many ticks as `ST` says. -/
theorem sound_iterate_tickEvent_iff {s : State} (hrun : s.run = .running) (k : Nat) :
    sound (tickEvent^[k] s) = true ↔ k < s.st.toNat := by
  rw [sound, decide_eq_true_iff, toNat_st_iterate_tickEvent k hrun, Nat.sub_pos_iff_lt]

theorem exec_ldDtVx_eq (s : State) (x : Reg) : exec (.ldDtVx x) s = .next { s with dt := s.getV x } := rfl

theorem exec_ldStVx_eq (s : State) (x : Reg) : exec (.ldStVx x) s = .next { s with st := s.getV x } := rfl

/-- Settles O50: each transfer writes one piece, and the tone counts down what was written to `ST`. -/
theorem timerTransfers : Obligations.TimerTransfers := by
  refine fun x s => ⟨⟨hasRow_of_rowOf_eq rfl, ?readDt⟩, ⟨hasRow_of_rowOf_eq rfl, ?writeDt⟩,
    ⟨hasRow_of_rowOf_eq rfl, ?writeSt⟩⟩
  case readDt => exact exec_result rfl
  case writeDt => exact ⟨_, exec_ldDtVx_eq s x, rfl, Frame.refl.withDt (List.mem_singleton_self _) _⟩
  case writeSt =>
    exact ⟨_, exec_ldStVx_eq s x, rfl, Frame.refl.withSt (List.mem_singleton_self _) _,
      sound_iterate_tickEvent_iff (s := { s with st := s.getV x })⟩

end Sys2Proof.Safety

/-! The report and event rules of spec/60_exceptions.md: which report an instruction and a step raise (R150 to R154),
that every step completes (R165), and what the events do to the run-state (R159 to R163). -/

namespace Sys2Proof.Safety

open Sys2Proof.Machine

/-! ## Completion (R150, R165) -/

theorem guardRange_completes (base len : Nat) (s u : State) : ∃ t, guardRange base len s (.next u) = .next t := by
  rcases guardRange_cases s base len (.next u) with ⟨-, e⟩ | ⟨-, e⟩ <;> exact ⟨_, e⟩

theorem callTo_completes (depth : Option Nat) (target : Word) (s : State) : ∃ t, callTo depth target s = .next t := by
  rcases callTo_cases s depth target with ⟨-, e⟩ | ⟨-, e⟩ <;> exact ⟨_, e⟩

theorem returnFromCall_completes (s : State) : ∃ t, returnFromCall s = .next t := by
  rcases returnFromCall_cases s with ⟨-, e⟩ | ⟨_, _, -, e⟩ <;> exact ⟨_, e⟩

theorem execLdVxK_completes (x : Reg) (s : State) : ∃ t, execLdVxK x s = .next t := by
  rcases execLdVxK_cases x s with ⟨-, e⟩ | ⟨_, -, e⟩ <;> exact ⟨_, e⟩

/-- Only the instructions that choose between two next states need an argument. -/
theorem exec_completes (i : Instr) (s : State) : ∃ t, exec i s = .next t := by
  cases i with
  | ret => exact returnFromCall_completes s
  | call nnn => exact callTo_completes _ _ s
  | ldVxK x => exact execLdVxK_completes x s
  | drw | ldB | storeRegs | loadRegs => exact guardRange_completes _ _ s _
  | _ => exact ⟨_, rfl⟩

theorem step_completes (s : State) : ∃ t, step s = .next t := by
  rcases step_cases s with ⟨-, e⟩ | ⟨-, -, e⟩ | ⟨-, -, -, e⟩ | ⟨i, -, -, -, e⟩
  · exact ⟨_, e⟩
  · exact ⟨_, e⟩
  · exact ⟨_, e⟩
  · exact e ▸ exec_completes i (fetchAdvance s)

/-- Settles O12: a step is nothing, a report, or an instruction, and every instruction completes. -/
theorem everyStepCompletes : Obligations.EveryStepCompletes := ⟨exec_completes, step_completes⟩

/-! ## A reporting step (R164) -/

theorem not_le_pc_of_fetch {s : State} (hf : fetchFaults s = false) : ¬ 0xFFF ≤ s.pc.toNat :=
  (fetchFaults_eq_true s).not.1 (Bool.eq_false_iff.1 hf)

/-- Settles O10: an instruction that reports keeps the fetch-advanced state, and so does an unknown word; a fetch fault
advances nothing. -/
theorem reportingStepIsPrecise : Obligations.ReportingStepIsPrecise := by
  intro s t hrun h hr
  rcases step_cases s with ⟨hidle, -⟩ | ⟨-, hf, e⟩ | ⟨-, hf, -, e⟩ | ⟨i, -, hf, hd, -⟩
  · exact absurd hrun hidle
  · obtain rfl := next_inj (e.symm.trans h)
    rw [if_pos ((fetchFaults_eq_true s).1 hf)]
  · obtain rfl := next_inj (e.symm.trans h)
    rw [if_neg (not_le_pc_of_fetch hf)]
    rfl
  · rw [if_neg (not_le_pc_of_fetch hf)]
    exact step_precise_of_decoded hrun hf hd h hr

/-! ## The report an instruction raises (R150 to R154) -/

/-- The bytes an instruction accesses through `I`. -/
def accessLen (s : State) : Instr → Nat
  | .drw x y n => spriteLen (spriteOf x y n s)
  | .ldB _ => 3
  | .storeRegs x | .loadRegs x => blockLen x
  | _ => 0

/-- The report an instruction raises, `Report.none` where it raises none. -/
def raisedBy (s : State) : Instr → Report
  | .ret => if s.sp = 0 then .stackUnderflow else .none
  | .call _ => if 16 ≤ s.sp then .stackOverflow else .none
  | i => if rangeFaults (indexBase s) (accessLen s i) then .memoryFault (max s.i.toNat 0x1000) else .none

/-- The access of an instruction through `I` leaves memory: the rows of R153 but the fetch. -/
def AccessFaults (s : State) (i : Instr) : Prop :=
  (∃ x, i = .ldB x ∧ 0xFFF < s.i.toNat + 2) ∨
  (∃ x : Reg, (i = .storeRegs x ∨ i = .loadRegs x) ∧ 0xFFF < s.i.toNat + x.val) ∨
  ∃ x y n, i = .drw x y n ∧ ¬ SpriteInRange n s

section
variable {i : Instr} {s t u : State}

theorem rangeFaults_accessLen : rangeFaults (indexBase s) (accessLen s i) = true ↔ AccessFaults s i := by
  cases i with
  | drw x y n => simp [AccessFaults, accessLen, ← rangeFaults_sprite x y n s]
  | ldB | storeRegs | loadRegs => simp [AccessFaults, accessLen, rangeFaults_eq_true, blockLen, indexBase]
  | _ => simp [AccessFaults, accessLen, rangeFaults_eq_true]

theorem report_of_guardRange {base len : Nat} (h : guardRange base len s (.next u) = .next t) (hu : u.report = .none) :
    t.report = if rangeFaults base len then .memoryFault (faultAddr base) else .none := by
  rcases guardRange_cases s base len (.next u) with ⟨hf, e⟩ | ⟨hf, e⟩
  · rw [← next_inj (e.symm.trans h), hf, if_pos rfl]
  · rw [← next_inj (e.symm.trans h), hf, if_neg Bool.false_ne_true, hu]

theorem report_of_callTo {target : Word} (hs : s.report = .none)
    (h : callTo Config.stackDepth target s = .next t) : t.report = if 16 ≤ s.sp then .stackOverflow else .none := by
  rcases callTo_cases s Config.stackDepth target with ⟨hfull, e⟩ | ⟨hroom, e⟩
  · have hsp : 16 ≤ s.sp := (stackFull_hardware s.stack).1 hfull
    rw [← next_inj (e.symm.trans h), if_pos hsp]
  · have hsp : ¬ 16 ≤ s.sp := (stackFull_hardware s.stack).not.1 (Bool.eq_false_iff.1 hroom)
    rw [← next_inj (e.symm.trans h), if_neg hsp, hs]

theorem report_of_returnFromCall (hs : s.report = .none) (h : returnFromCall s = .next t) :
    t.report = if s.sp = 0 then .stackUnderflow else .none := by
  rcases returnFromCall_cases s with ⟨hnil, e⟩ | ⟨a, rest, hcons, e⟩
  · rw [← next_inj (e.symm.trans h), State.sp, hnil, List.length_nil, if_pos rfl]
  · rw [← next_inj (e.symm.trans h), State.sp, hcons, List.length_cons, if_neg (Nat.succ_ne_zero _), hs]

/-- Six instructions can raise a report; the frame of every other keeps the clear one. -/
theorem report_of_exec (hs : s.report = .none) (h : exec i s = .next t) : t.report = raisedBy s i := by
  cases i with
  | ret => exact report_of_returnFromCall hs h
  | call => exact report_of_callTo hs h
  | drw | ldB | storeRegs | loadRegs => exact report_of_guardRange h hs
  | _ => exact ((exec_frame h).report.resolve_left (by simp)).trans hs

theorem raisedBy_eq_iff {r : Report} (hr : r ≠ .none) :
    raisedBy s i = r ↔ (i = .ret ∧ s.sp = 0 ∧ r = .stackUnderflow) ∨
      ((∃ nnn, i = .call nnn) ∧ 16 ≤ s.sp ∧ r = .stackOverflow) ∨
      (AccessFaults s i ∧ r = .memoryFault (max s.i.toNat 0x1000)) := by
  rw [← rangeFaults_accessLen]
  unfold raisedBy
  split
  · by_cases hsp : s.sp = 0 <;> simp [hsp, accessLen, rangeFaults_eq_true, @eq_comm _ r, hr.symm]
  · by_cases hsp : 16 ≤ s.sp <;> simp [hsp, accessLen, rangeFaults_eq_true, @eq_comm _ r, hr.symm]
  · next hret hcall =>
    have hret' : i ≠ .ret := hret
    have hcall' : ∀ nnn, i ≠ .call nnn := hcall
    by_cases hf : rangeFaults (indexBase s) (accessLen s i) = true <;>
      simp [hf, hret', hcall', @eq_comm _ r, hr.symm]

end

/-! ## The report a step raises (R47, R66, R150) -/

/-- A word decodes to no instruction exactly when it fits no row of the map (R62, R66). -/
theorem decodeWord_eq_error_iff {w : Word} :
    (∃ e, decodeWord w = .error e) ↔ ∀ r ∈ opcodeRows, r.fits w = false := by
  constructor
  · rintro ⟨e, he⟩ r hr
    refine Bool.eq_false_iff.2 fun hfits => ?_
    obtain ⟨i, hi⟩ := exists_decodeWord_of_fits hr hfits
    cases he.symm.trans hi
  · exact fun h => ⟨_, decodeWord_of_no_row h⟩

theorem raisedBy_fetchAdvance (s : State) (i : Instr) : raisedBy (fetchAdvance s) i = raisedBy s i := by
  cases i <;> rfl

/-- A running step reports a fetch fault, an unknown word, or what the decoded instruction raises. -/
theorem report_of_step {s t : State} (hrun : s.run = .running) (h : step s = .next t) :
    (0xFFF ≤ s.pc.toNat ∧ t.report = .memoryFault (max s.pc.toNat 0x1000)) ∨
    (s.pc.toNat ≤ 0xFFE ∧ (∃ e, decodeWord (fetchWord s) = .error e) ∧ t.report = .unknownOpcode (fetchWord s)) ∨
    ∃ i, s.pc.toNat ≤ 0xFFE ∧ decodeWord (fetchWord s) = .ok i ∧ t.report = raisedBy s i := by
  rcases step_cases s with ⟨hidle, -⟩ | ⟨-, hf, e⟩ | ⟨-, hf, hd, e⟩ | ⟨i, -, hf, hd, e⟩
  · exact absurd hrun hidle
  · exact .inl ⟨(fetchFaults_eq_true s).1 hf, by rw [← next_inj (e.symm.trans h), faultAddr]⟩
  · exact .inr (.inl ⟨(fetchFaults_eq_false s).1 hf, hd, by rw [← next_inj (e.symm.trans h)]⟩)
  · have hr := report_of_exec (fetchAdvance_report s) (e.symm.trans h)
    exact .inr (.inr ⟨i, (fetchFaults_eq_false s).1 hf, hd, hr.trans (raisedBy_fetchAdvance s i)⟩)

/-- Settles O11: the three ways a step reports exclude each other, and so do the reports of different instructions. -/
theorem reportsHaveTheirCauses : Obligations.ReportsHaveTheirCauses := by
  intro s t hrun h
  simp only [← decodeWord_eq_error_iff]
  rcases report_of_step hrun h with ⟨hpc, hr⟩ | ⟨hpc, ⟨e, hd⟩, hr⟩ | ⟨i, hpc, hd, hr⟩
  · have hnot : ¬ s.pc.toNat ≤ 0xFFE := by omega
    simp [hr, hpc, hnot, eq_comm]
  · have hnot : ¬ 0xFFF ≤ s.pc.toNat := by omega
    simp [hr, hpc, hnot, hd, eq_comm]
  · have hnot : ¬ 0xFFF ≤ s.pc.toNat := by omega
    simp [hr, hpc, hnot, hd, raisedBy_eq_iff, AccessFaults, and_comm]

/-! ## The run-state (R160 to R163) -/

/-- The next step executes `00FD`. -/
def ExecutesExit (s : State) : Prop :=
  s.run = .running ∧ s.pc.toNat ≤ 0xFFE ∧ decodeWord (fetchWord s) = .ok .exit

theorem run_of_exec {i : Instr} {s t : State} (h : exec i s = .next t) :
    (i = .exit ∧ t.run = .stopped) ∨ (i ≠ .exit ∧ t.run = s.run) := by
  by_cases hi : i = .exit
  · subst hi
    exact .inl ⟨rfl, next_inj h ▸ rfl⟩
  · exact .inr ⟨hi, (exec_frame h).run.resolve_left fun hw => hi (writers_of_run hw)⟩

theorem run_of_step {s t : State} (h : step s = .next t) :
    (ExecutesExit s ∧ t.run = .stopped) ∨ (¬ ExecutesExit s ∧ t.run = s.run) := by
  rcases step_cases s with ⟨hidle, e⟩ | ⟨-, hf, e⟩ | ⟨-, -, ⟨_, hd⟩, e⟩ | ⟨i, hrun, hf, hd, e⟩
  · exact .inr ⟨fun ⟨hrun, _⟩ => hidle hrun, next_inj (e.symm.trans h) ▸ rfl⟩
  · have hpc : ¬ s.pc.toNat ≤ 0xFFE := Nat.not_le.2 ((fetchFaults_eq_true s).1 hf)
    exact .inr ⟨fun ⟨_, hle, _⟩ => hpc hle, next_inj (e.symm.trans h) ▸ rfl⟩
  · exact .inr ⟨fun ⟨_, _, hx⟩ => (nomatch hd.symm.trans hx), next_inj (e.symm.trans h) ▸ rfl⟩
  · rcases run_of_exec (e.symm.trans h) with ⟨rfl, ht⟩ | ⟨hi, ht⟩
    · exact .inl ⟨⟨hrun, (fetchFaults_eq_false s).1 hf, hd⟩, ht⟩
    · exact .inr ⟨fun ⟨_, _, hx⟩ => hi (Except.ok.inj (hd.symm.trans hx)), ht⟩

/-- Settles O13: the step that executes `00FD` is taken in RUNNING, so the STOPPED it leaves is a change. -/
theorem onlyExitChangesRunState : Obligations.OnlyExitChangesRunState := by
  intro s t h
  rcases run_of_step h with ⟨hx, ht⟩ | ⟨hx, ht⟩
  · have hne : t.run ≠ s.run := by rw [ht, hx.1]; decide
    exact ⟨.inr ht, iff_of_true hne hx⟩
  · exact ⟨.inl ht, iff_of_false (fun hne => hne ht) hx⟩

theorem tickEvent_of_not_running {s : State} (h : s.run ≠ .running) : tickEvent s = s := by
  unfold tickEvent
  split
  · exact absurd ‹_› h
  · rfl
  · rfl

/-- Settles O51: in RUNNING each timer is counted down, and elsewhere the tick is the identity. -/
theorem tickCountsTimersDown : Obligations.TickCountsTimersDown := by
  intro s
  by_cases hrun : s.run = .running
  · refine ⟨_, congrArg Host.Outcome.next (tickEvent_of_running hrun), ?frame,
      fun _ => ⟨toNat_countDown s.dt, toNat_countDown s.st⟩, fun hne => absurd hrun hne⟩
    case frame => exact (Frame.refl.withDt (by decide) (countDown s.dt)).withSt (by decide) (countDown s.st)
  · exact ⟨s, congrArg Host.Outcome.next (tickEvent_of_not_running hrun), Frame.refl, fun h => absurd h hrun,
      fun _ => rfl⟩

/-- The run-state after `pause_toggle` (R161). -/
def toggledRun : RunState → RunState
  | .running => .paused
  | .paused => .running
  | .stopped => .stopped

theorem pauseToggleEvent_eq (s : State) : pauseToggleEvent s = { s with run := toggledRun s.run } := by
  cases h : s.run <;> simp only [pauseToggleEvent, h, toggledRun]
  rw [← h]

/-- Settles O52: either event is a write of the run-state. -/
theorem pauseAndStop : Obligations.PauseAndStop := by
  refine fun s => ⟨⟨_, congrArg Host.Outcome.next (pauseToggleEvent_eq s), ?toggle, ?run⟩, ⟨_, rfl, ?stop, rfl⟩⟩
  case toggle => exact Frame.refl.withRun (List.mem_singleton_self _) _
  case run => exact ⟨congrArg toggledRun, congrArg toggledRun, congrArg toggledRun⟩
  case stop => exact Frame.refl.withRun (List.mem_singleton_self _) _

/-! ## A stopped machine (R163, R187) -/

/-- `t` is `s` but for the `REPORT` output and the inputs the environment sets. -/
def SameButPorts (s t : State) : Prop :=
  t = { s with report := t.report, keys := t.keys, quirks := t.quirks, rngIn := t.rngIn }

section
variable {s t u : State}

theorem SameButPorts.run_eq (h : SameButPorts s t) : t.run = s.run := by rw [h]

theorem SameButPorts.trans (h : SameButPorts s t) (h' : SameButPorts t u) : SameButPorts s u := by
  rw [SameButPorts, h] at h'
  exact h'

/-- Each event but a reset leaves a stopped machine as it is, or sets a port. -/
theorem applyEvent_of_stopped {e : Event} (hs : s.run = .stopped) (he : ∀ inp, e ≠ .reset inp) :
    ∃ t, applyEvent e s = .next t ∧ SameButPorts s t := by
  cases e with
  | reset inp => exact absurd rfl (he inp)
  | step => exact ⟨_, step_of_stopped hs, rfl⟩
  | tick => exact ⟨s, congrArg Host.Outcome.next (tickEvent_of_stopped hs), rfl⟩
  | pauseToggle => exact ⟨s, congrArg Host.Outcome.next (pauseToggleEvent_of_stopped hs), rfl⟩
  | stop => exact ⟨s, congrArg Host.Outcome.next (stopEvent_of_stopped hs), rfl⟩
  | setKeys | setQuirks | supplyRandom => exact ⟨_, rfl, rfl⟩

end

theorem applyEvents_cons_of_next {e : Event} {es : List Event} {s t : State} (h : applyEvent e s = .next t) :
    applyEvents (e :: es) s = applyEvents es t := by
  simp only [applyEvents, h]

theorem applyEvents_of_stopped {es : List Event} (hes : ∀ inp, Event.reset inp ∉ es) {s : State}
    (hs : s.run = .stopped) : ∃ t, applyEvents es s = .next t ∧ SameButPorts s t := by
  induction es generalizing s with
  | nil => exact ⟨s, rfl, rfl⟩
  | cons e es ih =>
    obtain ⟨t, ht, hst⟩ := applyEvent_of_stopped hs fun inp he => hes inp (he ▸ List.mem_cons_self)
    obtain ⟨u, hu, htu⟩ := ih (fun inp hin => hes inp (List.mem_cons_of_mem e hin)) (hst.run_eq.trans hs)
    exact ⟨u, (applyEvents_cons_of_next ht).trans hu, hst.trans htu⟩

/-- Settles O53: no event of the run leaves STOPPED, so each of them sets at most a port. -/
theorem stoppedIsAbsorbing : Obligations.StoppedIsAbsorbing := by
  intro es s hs hes
  obtain ⟨t, ht, hst⟩ := applyEvents_of_stopped hes hs
  exact ⟨t, ht, hst.run_eq.trans hs, hst⟩

end Sys2Proof.Safety

/-! The length check of the reset event and the model's own reset state (spec/70_reset_and_hazards.md R180 to R182). -/

namespace Sys2Proof.Safety

open Sys2Proof.Machine

/-! ## A ROM that is too large (R182) -/

/-- A reset with a ROM longer than the program region has no next state, whatever the state before (R182, log 12). -/
theorem resetEvent_of_tooLarge {inp : ResetInputs} (h : Config.romMax < inp.rom.length) (s : State) :
    resetEvent inp s = .fault .romTooLarge :=
  if_pos h

/-- The bytes of a ROM of legal length lie in the program region one by one. -/
theorem some_read_resetMemory_eq_getElem? {inp : ResetInputs} (hrom : inp.rom.length ≤ 3584) {k : Nat}
    (hk : k < inp.rom.length) : some ((resetMemory inp).read (0x200 + k)) = inp.rom[k]? := by
  rw [read_resetMemory_program hrom, List.getD_eq_getElem _ _ hk, List.getElem?_eq_getElem hk]

/-- Settles O55: the two branches of the length check, and for the longest legal ROM the offset of each address. -/
theorem tooLargeRomLeavesNoMachine : Obligations.TooLargeRomLeavesNoMachine := by
  intro inp s
  constructor
  · intro hlong
    exact resetEvent_of_tooLarge hlong s
  · intro hlen
    refine ⟨_, resetEvent_of_legal hlen.le s, fun a hlow hhigh => ?_⟩
    obtain ⟨k, rfl⟩ := Nat.exists_eq_add_of_le hlow
    rw [Nat.add_sub_cancel_left]
    exact some_read_resetMemory_eq_getElem? hlen.le (by omega)

/-! ## The reset state (R34, R181) -/

/-- Writing the reset byte of an address leaves the memory that lists nothing as it is (log 21). -/
theorem write_resetByte_of_empty {a : Nat} {b : Byte} (h : resetByte a = some b) :
    (⟨[]⟩ : Memory).write a b = ⟨[]⟩ := by
  by_cases ha : Config.maxAddr < a
  · exact write_of_gt _ b ha
  · rw [Memory.write, if_neg ha, if_pos h]
    rfl

/-- The same for a block whose bytes are the reset bytes of their addresses. -/
theorem writeBytes_resetBytes_of_empty {bs : List Byte} {a : Nat}
    (h : ∀ k, k < bs.length → resetByte (a + k) = some (bs.getD k 0)) :
    (⟨[]⟩ : Memory).writeBytes a bs = ⟨[]⟩ := by
  induction bs generalizing a with
  | nil => rfl
  | cons b bs ih =>
    have htail : ∀ k, k < bs.length → resetByte (a + 1 + k) = some (bs.getD k 0) := fun k hk => by
      rw [Nat.add_assoc, Nat.add_comm 1 k]
      exact h (k + 1) (Nat.succ_lt_succ hk)
    have hhead : resetByte a = some b := h 0 (Nat.zero_lt_succ _)
    rw [Memory.writeBytes, write_resetByte_of_empty hhead, ih htail]

/-- The default small font is what its region resets to, so writing it lists nothing (R181, log 8). -/
theorem writeBytes_fontSmall_of_empty : (⟨[]⟩ : Memory).writeBytes Config.fontBase fontSmall = ⟨[]⟩ := by
  have hlen : fontSmall.length = 80 := by decide
  refine writeBytes_resetBytes_of_empty fun k hk => ?_
  rw [Config.fontBase, resetByte_fontSmall (Nat.le_add_right _ _) (by omega), Nat.add_sub_cancel_left]

/-- With the default small font, no large font given and an empty ROM, the memory image lists nothing. -/
theorem resetMemory_of_defaults (hires : Bool) :
    resetMemory { rom := [], initialHires := hires, largeFont := none } = State.reset.mem := by
  rw [resetMemory, writeBytes_fontSmall_of_empty]
  rfl

/-- In a concatenation of lists of one length `n`, the element `k` of the list `d` has the offset `n * d + k`. -/
theorem getD_flatten_of_length {n k : Nat} (hk : k < n) : ∀ {ls : List (List Byte)}, (∀ l ∈ ls, l.length = n) →
    ∀ d, ls.flatten.getD (n * d + k) 0 = (ls.getD d []).getD k 0
  | [], _, _ => rfl
  | l :: ls, h, 0 => by
    have hl := h l List.mem_cons_self
    rw [List.flatten_cons, Nat.mul_zero, Nat.zero_add, List.getD_append _ _ _ _ (by omega), List.getD_cons_zero]
  | l :: ls, h, d + 1 => by
    have hl := h l List.mem_cons_self
    have hoff : n * (d + 1) + k - l.length = n * d + k := by rw [hl, Nat.mul_succ]; omega
    rw [List.flatten_cons, List.getD_append_right _ _ _ _ (by rw [hl, Nat.mul_succ]; omega), hoff,
      getD_flatten_of_length hk (fun l' hl' => h l' (List.mem_cons_of_mem l hl')), List.getD_cons_succ]

/-- Glyph `d` of the small font lies at the offset `5 * d` (R41, R181). -/
theorem fontSmall_getD_glyph {k : Nat} (hk : k < 5) (d : Nat) :
    fontSmall.getD (5 * d + k) 0 = ((fontSmallLow ++ fontSmallHigh).getD d []).getD k 0 :=
  getD_flatten_of_length hk (by decide) d

/-- Settles O56: the memory image is the reset state's, and its bytes are those that unlisted addresses read as. -/
theorem resetStateIsAResetEvent : Obligations.ResetStateIsAResetEvent := by
  refine ⟨?event, fun d k hd hk => ?glyphs, fun k hk => ?free⟩
  case event =>
    refine (resetEvent_of_legal (Nat.zero_le _) State.reset).trans ?_
    rw [resetMemory_of_defaults]
    rfl
  case glyphs =>
    rw [← fontSmall_getD_glyph hk, Nat.add_assoc]
    refine (unlistedByte_of_known (resetByte_fontSmall (Nat.le_add_right _ _) (by omega))).trans ?_
    rw [Nat.add_sub_cancel_left]
  case free =>
    refine (unlistedByte_fontLarge (Nat.le_add_right _ _) (by omega)).trans ?_
    rw [Nat.add_sub_cancel_left]

end Sys2Proof.Safety

/-! The strict reading of reports and the end of a run (spec/93_implementation_defined.md Part 3). -/

namespace Sys2Proof.Safety

open Sys2Proof.Machine

section
variable {s t : State}

/-- A step that raises no report is a strict step. -/
theorem strictStep_of_noReport (h : step s = .next t) (hr : t.report = .none) : strictStep s = .next t := by
  simp [strictStep, h, hr]

/-- A step that raises a report is the strict fault that carries it. -/
theorem strictStep_of_report (h : step s = .next t) (hr : t.report ≠ .none) :
    strictStep s = .fault (.reported t.report) := by
  simp [strictStep, h, hr]

/-- A run ends in a fetch fault exactly where a running machine cannot fetch (R47, R187). -/
theorem runEnd_eq_fetchFault : runEnd s = some .fetchFault ↔ s.run = .running ∧ fetchFaults s = true := by
  cases hrun : s.run <;> simp [runEnd, hrun]

end

/-- Settles O57: a state at the end of a fetch fault is one whose step reports that fault. -/
theorem strictStepStopsAtReports : Obligations.StrictStepStopsAtReports := by
  refine fun s t h => ⟨strictStep_of_noReport h, strictStep_of_report h, fun hend => ?_⟩
  obtain ⟨hrun, hfetch⟩ := runEnd_eq_fetchFault.mp hend
  exact ⟨_, strictStep_of_report (step_of_fetchFault hrun hfetch) Report.noConfusion⟩

end Sys2Proof.Safety
